-- ==== Sys2Proof/Word.lean ====
section
/-! DEFINITION. The two word types of the core: a register or memory byte and a 16-bit address or pair
(00_scope.md R9, R10). Every value is unsigned. -/

namespace Sys2Proof

/-- An 8-bit unsigned value: a register, a memory byte, an opcode (`REG_WIDTH`, `OPCODE_WIDTH` of R9). -/
abbrev Byte := BitVec 8

/-- A 16-bit unsigned value: the program counter, an address, a pair (`PC_WIDTH`, `ADDR_WIDTH` of R9). -/
abbrev Word := BitVec 16

end Sys2Proof
end

