-- ==== Sys2Proof/Syntax.lean ====
section
/-! DEFINITION. The instructions of the core: one constructor for each row of spec/opcode_table.json
(30_encoding.md R61). No instruction has a field: the operand is implied by the whole byte (R62, R70). -/

namespace Sys2Proof

/-- The closed set of six instructions (R61, R73). -/
inductive Instr where
  /-- `NOP`, 0x00 (41_control.md R98). -/
  | nop
  /-- `INC BC`, 0x03 (43_inc16.md R119). -/
  | incBC
  /-- `INC B`, 0x04 (42_alu8.md R111). -/
  | incB
  /-- `INC DE`, 0x13 (43_inc16.md R120). -/
  | incDE
  /-- `HALT`, 0x76 (41_control.md R100). -/
  | halt
  /-- `ADD A,C`, 0x81 (42_alu8.md R108). -/
  | addAC
deriving DecidableEq, Repr, Inhabited

end Sys2Proof
end

