-- ==== Sys2Proof/Machine/Terms.lean ====
section
/-! DEFINITION. The decoded instruction as a term (30_encoding.md R59, R60): an instruction kind with
zero or one operand target, the codes the fault record and the decoder block give them, and the
term each instruction of the opcode table decodes to. -/

namespace Sys2Proof

/-- The seven 8-bit registers (10_state.md R18). -/
inductive Reg8 where
  | a | b | c | d | e | h | l
deriving DecidableEq, Repr, Inhabited

/-- The three virtual register pairs (10_state.md R21). -/
inductive Pair where
  | bc | de | hl
deriving DecidableEq, Repr, Inhabited

/-- The register that holds bits 15:8 of a pair (10_state.md R21). -/
def Pair.high : Pair → Reg8
  | .bc => .b
  | .de => .d
  | .hl => .h

/-- The register that holds bits 7:0 of a pair (10_state.md R21). -/
def Pair.low : Pair → Reg8
  | .bc => .c
  | .de => .e
  | .hl => .l

/-- The four instruction kinds (30_encoding.md R59). -/
inductive Kind where
  | nop | halt | add | inc
deriving DecidableEq, Repr, Inhabited

/-- The 2-bit kind code (30_encoding.md R59). -/
def Kind.code : Kind → BitVec 2
  | .nop => 0#2
  | .halt => 1#2
  | .add => 2#2
  | .inc => 3#2

/-- An operand target with what it carries: one of the twelve of 30_encoding.md R60. -/
inductive Target where
  | reg (r : Reg8)
  | pair (p : Pair)
  | imm8 (v : Byte)
  | memHL
deriving DecidableEq, Repr

/-- What the fault record and the decoder block keep of a target: which of the twelve it is, without
the immediate's value (60_exceptions.md R128, "`v` is not recorded"). The unused codes 12 to 15 have
no value here (93_implementation_defined.md U11). -/
inductive TargetTag where
  | a | b | c | d | e | h | l | bc | de | hl | imm8 | memHL
deriving DecidableEq, Repr, Inhabited

/-- The 4-bit target code (30_encoding.md R60). -/
def TargetTag.code : TargetTag → BitVec 4
  | .a => 0#4
  | .b => 1#4
  | .c => 2#4
  | .d => 3#4
  | .e => 4#4
  | .h => 5#4
  | .l => 6#4
  | .bc => 7#4
  | .de => 8#4
  | .hl => 9#4
  | .imm8 => 10#4
  | .memHL => 11#4

/-- The tag of an 8-bit register. -/
def Reg8.tag : Reg8 → TargetTag
  | .a => .a
  | .b => .b
  | .c => .c
  | .d => .d
  | .e => .e
  | .h => .h
  | .l => .l

/-- The tag of a pair. -/
def Pair.tag : Pair → TargetTag
  | .bc => .bc
  | .de => .de
  | .hl => .hl

/-- The tag of a target. -/
def Target.tag : Target → TargetTag
  | .reg r => r.tag
  | .pair p => p.tag
  | .imm8 _ => .imm8
  | .memHL => .memHL

/-- The 3-bit select of a register file port (40_engine.md R90): the register's target code. -/
def Reg8.sel (r : Reg8) : BitVec 3 := r.tag.code.truncate 3

/-- The 2-bit select of a 16-bit register file port (40_engine.md R90). -/
def Pair.sel : Pair → BitVec 2
  | .bc => 0#2
  | .de => 1#2
  | .hl => 2#2

/-- A decoded instruction (30_encoding.md R59): "each carrying zero or one operand descriptor". -/
inductive Term where
  | nop
  | halt
  | add (t : Target)
  | inc (t : Target)
deriving DecidableEq, Repr

/-- The kind of a term (30_encoding.md R59). -/
def Term.kind : Term → Kind
  | .nop => .nop
  | .halt => .halt
  | .add _ => .add
  | .inc _ => .inc

/-- The target tag of a term; a term with no target has code 0 (30_encoding.md R76: `dec_target` is 0
for Nop and Halt). -/
def Term.tag : Term → TargetTag
  | .nop => .a
  | .halt => .a
  | .add t => t.tag
  | .inc t => t.tag

/-- The decoded instruction of each opcode table row (30_encoding.md R61, column "decoded instruction"). -/
def Instr.term : Instr → Term
  | .nop => .nop
  | .incBC => .inc (.pair .bc)
  | .incB => .inc (.reg .b)
  | .incDE => .inc (.pair .de)
  | .halt => .halt
  | .addAC => .add (.reg .c)

end Sys2Proof
end

