-- ==== Sys2Proof/Config.lean ====
section
/-! DEFINITION. The implementation parameters of 00_scope.md R9 ("None is left open"), and the free
values of the block-level view: what a signal carries when no rule drives it. No instruction's
result rests on a free value (log 10). -/

namespace Sys2Proof

/-- `REG_WIDTH` (R9). -/
def Config.regWidth : Nat := 8
/-- `NUM_REGS` (R9): the general registers, the flags register apart. -/
def Config.numRegs : Nat := 7
/-- `NUM_FLAGS` (R9). -/
def Config.numFlags : Nat := 4
/-- `PC_WIDTH` (R9). -/
def Config.pcWidth : Nat := 16
/-- `ADDR_WIDTH` (R9). -/
def Config.addrWidth : Nat := 16
/-- `MEM_SIZE` (R9, 20_memory.md R44; the spec's decision D1, log 1). -/
def Config.memSize : Nat := 65536
/-- `OPCODE_WIDTH` (R9). -/
def Config.opcodeWidth : Nat := 8
/-- `NUM_OPCODES` (R9). -/
def Config.numOpcodes : Nat := 6

/-- What a byte of memory holds at reset, and so what an address the memory does not list reads as:
"all zero-initialized" (10_state.md R36, R41). -/
def Config.resetByte : Byte := 0x00#8

/-- The ALU's `alu_r8` in an operation that does not compute it, a function of the inputs
(`alu_op`, `alu_a`, `alu_b`, `alu_w`, `f_old`) alone (42_alu8.md R102). DESIGN CHOICE, log 10. -/
opaque Config.undrivenR8 : BitVec 2 → Byte → Byte → Word → BitVec 4 → Byte
/-- The ALU's `alu_r16` in an operation that does not compute it (R102). DESIGN CHOICE, log 10. -/
opaque Config.undrivenR16 : BitVec 2 → Byte → Byte → Word → BitVec 4 → Word
/-- The ALU's `alu_f` in an operation that computes no flag (R102, 43_inc16.md R117), in the order
Z, N, H, C. DESIGN CHOICE, log 10. -/
opaque Config.undrivenF : BitVec 2 → Byte → Byte → Word → BitVec 4 → BitVec 4
/-! What execute control and the operand wires carry where the instruction uses none of it. Each signal has a
free value of its own, so no two idle signals are related; each is a function of the decoder's three outputs
`dec_valid`, `dec_kind`, `dec_target` (30_encoding.md R76). DESIGN CHOICE, log 10. -/

/-- `alu_a` where the operation does not use it (42_alu8.md R102). DESIGN CHOICE, log 10. -/
opaque Config.undrivenA : Bool → Kind → TargetTag → Byte
/-- `alu_b` where the operation does not use it (R102). DESIGN CHOICE, log 10. -/
opaque Config.undrivenB : Bool → Kind → TargetTag → Byte
/-- `alu_w` where the operation does not use it (R102). DESIGN CHOICE, log 10. -/
opaque Config.undrivenW : Bool → Kind → TargetTag → Word
/-- `rd8_sel` where the instruction does not use the port (40_engine.md R90). DESIGN CHOICE, log 10. -/
opaque Config.idleRd8Sel : Bool → Kind → TargetTag → Reg8
/-- `rd16_sel` where the instruction does not use the port (R90). DESIGN CHOICE, log 10. -/
opaque Config.idleRd16Sel : Bool → Kind → TargetTag → Pair
/-- `wr8_sel` where the instruction does not use the port (R90). DESIGN CHOICE, log 10. -/
opaque Config.idleWr8Sel : Bool → Kind → TargetTag → Reg8
/-- `wr16_sel` where the instruction does not use the port (R90). DESIGN CHOICE, log 10. -/
opaque Config.idleWr16Sel : Bool → Kind → TargetTag → Pair

end Sys2Proof
end

