-- ==== Sys2Proof/WellFormed.lean ====
section
/-! DEFINITION. What is checked of an instruction before it is run or encoded. An instruction of the
opcode table has no field, so each is well formed (30_encoding.md R62). The checks stand on the
instruction terms, which can name an operand the execution or the encoding does not have. -/

namespace Sys2Proof

/-- An instruction of the opcode table has no field to be ill formed (30_encoding.md R62, R70). -/
def Instr.wf : Instr → Bool
  | .nop => true
  | .incBC => true
  | .incB => true
  | .incDE => true
  | .halt => true
  | .addAC => true

/-- The targets `Add` takes: the seven 8-bit registers (42_alu8.md R106, R107). -/
def Target.addOk : Target → Bool
  | .reg _ => true
  | .pair _ => false
  | .imm8 _ => false
  | .memHL => false

/-- The targets `Inc` takes: the 8-bit registers and the pairs (42_alu8.md R110, 43_inc16.md R117, R118). -/
def Target.incOk : Target → Bool
  | .reg _ => true
  | .pair _ => true
  | .imm8 _ => false
  | .memHL => false

/-- A term whose target the execution handles (40_engine.md R85). -/
def Term.supported : Term → Bool
  | .nop => true
  | .halt => true
  | .add t => t.addOk
  | .inc t => t.incOk

/-- A term that has a byte: one of the six of 30_encoding.md R71. -/
def Term.encodable : Term → Bool
  | .nop => true
  | .halt => true
  | .add t => t = .reg .c
  | .inc t => t = .reg .b || t = .pair .bc || t = .pair .de

end Sys2Proof
end

