-- ==== Sys2Proof/Decode.lean ====
section
/-! DEFINITION. The decoder (30_encoding.md R63, R64), total on every byte and every list of bytes and
rejecting by name, and the encoder (R71). One format, OP8: the whole byte is the opcode (R62). -/

namespace Sys2Proof

/-- `decode(byte)` of R64: six bytes give an instruction, the other 250 give none. -/
def decodeByte (b : Byte) : Option Instr :=
  match b with
  | 0x00#8 => some .nop
  | 0x03#8 => some .incBC
  | 0x04#8 => some .incB
  | 0x13#8 => some .incDE
  | 0x76#8 => some .halt
  | 0x81#8 => some .addAC
  | _ => none

/-- Why a list of bytes does not decode. -/
inductive Reject where
  /-- There is no byte to decode. -/
  | noByte
  /-- The byte is none of the six (30_encoding.md R66). -/
  | unknownOpcode (b : Byte)
deriving DecidableEq, Repr

/-- The first instruction of a list of bytes, with the bytes after it: every instruction is one byte
long (R62, R68). -/
def decode : List Byte → Except Reject (Instr × List Byte)
  | [] => .error .noByte
  | b :: rest =>
    match decodeByte b with
    | some i => .ok (i, rest)
    | none => .error (.unknownOpcode b)

/-- A whole list of bytes as instructions, up to the first byte that is none of the six. -/
def decodeStream : List Byte → Except Reject (List Instr)
  | [] => .ok []
  | b :: rest =>
    match decodeByte b with
    | none => .error (.unknownOpcode b)
    | some i =>
      match decodeStream rest with
      | .error e => .error e
      | .ok is => .ok (i :: is)

/-- `decode(byte)` with its result as a term (R64). -/
def decodeTerm (b : Byte) : Option Term := (decodeByte b).map Instr.term

/-- The byte of an instruction (30_encoding.md R61). -/
def encode : Instr → Byte
  | .nop => 0x00#8
  | .incBC => 0x03#8
  | .incB => 0x04#8
  | .incDE => 0x13#8
  | .halt => 0x76#8
  | .addAC => 0x81#8

/-- The bytes of a list of instructions, one a byte. -/
def encodeStream (is : List Instr) : List Byte := is.map encode

/-- `encode(instruction)` of R71 on terms: "partial, intentionally incomplete inverse". -/
def encodeTerm : Term → Option Byte
  | .nop => some 0x00#8
  | .inc (.pair .bc) => some 0x03#8
  | .inc (.reg .b) => some 0x04#8
  | .inc (.pair .de) => some 0x13#8
  | .halt => some 0x76#8
  | .add (.reg .c) => some 0x81#8
  | _ => none

/-- The spelling of 30_encoding.md R74, letter by letter. -/
def Instr.spelling : Instr → List Char
  | .nop => ['N', 'O', 'P']
  | .incBC => ['I', 'N', 'C', ' ', 'B', 'C']
  | .incB => ['I', 'N', 'C', ' ', 'B']
  | .incDE => ['I', 'N', 'C', ' ', 'D', 'E']
  | .halt => ['H', 'A', 'L', 'T']
  | .addAC => ['A', 'D', 'D', ' ', 'A', ',', 'C']

/-- The instruction a spelling names; there is no pseudo-instruction (30_encoding.md R75). -/
def instrOfSpelling (w : List Char) : Option Instr :=
  [Instr.nop, .incBC, .incB, .incDE, .halt, .addAC].find? fun i => i.spelling == w

/-- The first byte, in memory order, of an instruction whose bits are the low `nbits` bits of `w`. -/
def wordByte (nbits w : Nat) : Byte := BitVec.ofNat 8 (w % 2 ^ nbits)

/-- What the decoder reads from an instruction whose bits are `w`, numbered as spec/opcode_table.json
numbers them. -/
def decodeTableWord (nbits w : Nat) : Option Instr := decodeByte (wordByte nbits w)

end Sys2Proof
end

