-- ==== Sys2Proof/Machine/State.lean ====
section
/-! DEFINITION. The state of the core, exactly what 10_state.md R38 lists, as plain data, and its value
at reset (R39 to R41, 70_reset_and_hazards.md R143). -/

namespace Sys2Proof.Machine

/-- The register file: seven independent 8-bit registers (10_state.md R18). The pairs hold no storage (R23). -/
structure Regs where
  a : Byte
  b : Byte
  c : Byte
  d : Byte
  e : Byte
  h : Byte
  l : Byte
deriving DecidableEq, Repr

/-- The flags register: four independent booleans, zero, subtract, half-carry, carry (10_state.md R24). -/
structure Flags where
  z : Bool
  n : Bool
  h : Bool
  c : Bool
deriving DecidableEq, Repr

/-- `fault_kind` of 10_state.md R33; its code 3 "is never produced" and has no value here. -/
inductive FaultKind where
  | none | unknownOpcode | unsupportedOperand
deriving DecidableEq, Repr

/-- The 2-bit code of `fault_kind` (10_state.md R33). -/
def FaultKind.code : FaultKind → BitVec 2
  | .none => 0#2
  | .unknownOpcode => 1#2
  | .unsupportedOperand => 2#2

/-- The fault record (10_state.md R33). -/
structure FaultRecord where
  /-- `fault_kind`, 2 bits through `FaultKind.code`. -/
  kind : FaultKind
  /-- `fault_addr`, 16 bits. -/
  addr : Word
  /-- `fault_byte`, 8 bits. -/
  byte : Byte
  /-- `fault_instr_kind`, 2 bits through `Kind.code`. -/
  instrKind : Kind
  /-- `fault_target`, 4 bits through `TargetTag.code`. -/
  target : TargetTag
deriving DecidableEq, Repr

/-- The record when there is no fault: every field 0 (10_state.md R33, column "value when no fault"). -/
def FaultRecord.clear : FaultRecord :=
  { kind := .none, addr := 0x0000#16, byte := 0x00#8, instrKind := .nop, target := .a }

/-- Memory: the bytes that differ from what memory holds at reset, by rising address. Canonical form:
`Memory.wf` in Machine/Ops.lean. -/
abbrev Memory := List Host.Cell

/-- The architectural state: "exactly" the seven registers, the four flags, the program counter, the
halt flag, the fault record and the memory array (10_state.md R38). -/
structure State where
  regs : Regs
  flags : Flags
  pc : Word
  halted : Bool
  fault : FaultRecord
  mem : Memory
deriving DecidableEq, Repr

/-- The ways a step stops the machine without a next state. There is none: both faults of the spec
leave a state the spec describes, the fault record written and the status FAULTED (60_exceptions.md
R125, R128), so a step that raises one answers that state (log 6). -/
inductive Fault where
deriving DecidableEq, Repr

/-- The ways a step gives an instruction no meaning. -/
inductive Refusal where
  /-- An instruction with no meaning yet, raised by an arm of `exec` only. No arm raises it: every
  instruction of the table has its meaning. Safe. -/
  | notModelled (mnemonic : String)
deriving DecidableEq, Repr

/-- The state at reset (10_state.md R39 to R41, 70_reset_and_hazards.md R143). The zero of the registers,
flags and fault record is the spec's decision D7, D8, D6 (logs 3, 4, 5). -/
def State.reset : State :=
  { regs := { a := 0x00#8, b := 0x00#8, c := 0x00#8, d := 0x00#8, e := 0x00#8, h := 0x00#8, l := 0x00#8 }
    flags := { z := false, n := false, h := false, c := false }
    pc := 0x0000#16
    halted := false
    fault := .clear
    mem := [] }

end Sys2Proof.Machine
end

