-- ==== Sys2Proof/Machine/Ops.lean ====
section
/-! DEFINITION. The operations every instruction shares: reading and writing one byte of memory, the
register file, the program counter controller, the status, the fetch, and taking a fault. -/

namespace Sys2Proof.Machine

/-! ## Memory (20_memory.md R43 to R47) -/

/-- The byte at an address; an address the list does not name holds its reset byte (R46). -/
def Memory.readNat : Memory → Nat → Byte
  | [], _ => Config.resetByte
  | (k, v) :: m, a => if k = a then v else Memory.readNat m a

/-- The list with the byte at an address replaced, in canonical form. -/
def Memory.writeNat : Memory → Nat → Byte → Memory
  | [], a, v => if v = Config.resetByte then [] else [(a, v)]
  | (k, w) :: m, a, v =>
    if k < a then (k, w) :: Memory.writeNat m a v
    else if k = a then (if v = Config.resetByte then m else (a, v) :: m)
    else if v = Config.resetByte then (k, w) :: m
    else (a, v) :: (k, w) :: m

/-- `MemRead(addr, 1)`: total over the 65536 addresses, no side effect (R46). -/
def Memory.read (m : Memory) (a : Word) : Byte := Memory.readNat m a.toNat

/-- `MemWrite(addr, 1, v)` (R47). The core never uses it; the host does, before the first step. -/
def Memory.write (m : Memory) (a : Word) (v : Byte) : Memory := Memory.writeNat m a.toNat v

/-- The canonical form from a lowest address on: addresses strictly rising and inside the 65536 bytes of
R44, no entry equal to the reset byte. -/
def Memory.wfFrom : Nat → Memory → Bool
  | _, [] => true
  | lo, (k, v) :: m => decide (lo ≤ k) && decide (k < Config.memSize) && decide (v ≠ Config.resetByte) && Memory.wfFrom (k + 1) m

/-- The canonical form of a memory. -/
def Memory.wf (m : Memory) : Bool := Memory.wfFrom 0 m

/-! ## The register file (10_state.md R18) -/

/-- `x[r]` (R18). -/
def Regs.get (x : Regs) : Reg8 → Byte
  | .a => x.a
  | .b => x.b
  | .c => x.c
  | .d => x.d
  | .e => x.e
  | .h => x.h
  | .l => x.l

/-- `x[r] <- v` (R18): a write to one register changes no other. -/
def Regs.set (x : Regs) (r : Reg8) (v : Byte) : Regs :=
  match r with
  | .a => { x with a := v }
  | .b => { x with b := v }
  | .c => { x with c := v }
  | .d => { x with d := v }
  | .e => { x with e := v }
  | .h => { x with h := v }
  | .l => { x with l := v }

/-- `x[r]` of the machine. -/
def State.readReg (s : State) (r : Reg8) : Byte := s.regs.get r

/-- `x[r] <- v` of the machine. -/
def State.writeReg (s : State) (r : Reg8) (v : Byte) : State := { s with regs := s.regs.set r v }

/-- The flags written whole. -/
def State.writeFlags (s : State) (f : Flags) : State := { s with flags := f }

/-- The halt flag set; nothing clears it (10_state.md R32). -/
def State.setHalted (s : State) : State := { s with halted := true }

/-- A memory byte written by the host (40_engine.md R93). -/
def State.writeMem (s : State) (a : Word) (v : Byte) : State := { s with mem := s.mem.write a v }

/-! ## The program counter controller (40_engine.md R86, R87) -/

/-- `pc_sel`; its code 3 "is never driven" and has no value here (93_implementation_defined.md U11). -/
inductive PcSel where
  | seq | zero | hold
deriving DecidableEq, Repr, Inhabited

/-- The 2-bit code of `pc_sel` (R87). -/
def PcSel.code : PcSel → BitVec 2
  | .seq => 0#2
  | .zero => 1#2
  | .hold => 2#2

/-- `next_pc` (R86); `SEQ` wraps at 0xFFFF (R88). -/
def nextPc (sel : PcSel) (pc : Word) : Word :=
  match sel with
  | .seq => pc + 0x0001#16
  | .zero => 0x0000#16
  | .hold => pc

/-- `pc_we` (R86): 1 for `SEQ` and `ZERO`, 0 for `HOLD`. -/
def pcWe : PcSel → Bool
  | .seq => true
  | .zero => true
  | .hold => false

/-- `pc <- next_pc` at commit (R84, R86). -/
def State.commitPc (s : State) (sel : PcSel) : State :=
  { s with pc := if pcWe sel then nextPc sel s.pc else s.pc }

/-! ## The status (10_state.md R34) -/

/-- The status of the core. -/
inductive Status where
  | running | halted | faulted
deriving DecidableEq, Repr

/-- The status, computed from the halt flag and the fault record (R34). -/
def State.status (s : State) : Status :=
  if s.fault.kind ≠ .none then .faulted
  else if s.halted then .halted
  else .running

/-! ## Fetch and fault -/

/-- The opcode byte of the step: `MemRead(pc, 1)`, the only byte a step reads (40_engine.md R81). -/
def State.fetch (s : State) : Byte := s.mem.read s.pc

/-- Taking a fault, the core's one kind of exception: the fault record is written and nothing else, "no
other write: pc, registers, flags, memory, halted unchanged" (60_exceptions.md R125, R128). There is no
vector, no saved pc and no mode (R131), and no return from a fault (R133). -/
def State.takeFault (s : State) (r : FaultRecord) : State := { s with fault := r }

/-- The record of `UnknownOpcode(addr, byte)` (60_exceptions.md R125). -/
def FaultRecord.unknownOpcode (addr : Word) (byte : Byte) : FaultRecord :=
  { kind := .unknownOpcode, addr := addr, byte := byte, instrKind := .nop, target := .a }

/-- The record of `UnsupportedOperand(kind, target, addr)` (60_exceptions.md R128). -/
def FaultRecord.unsupportedOperand (kind : Kind) (target : TargetTag) (addr : Word) : FaultRecord :=
  { kind := .unsupportedOperand, addr := addr, byte := 0x00#8, instrKind := kind, target := target }

/-- `raise UnknownOpcode(fetch_addr, opcode)` of a step whose byte does not decode (40_engine.md R82). -/
def raiseUnknownOpcode (s : State) : Host.Outcome State Fault Refusal :=
  .next (s.takeFault (.unknownOpcode s.pc s.fetch))

/-- `raise UnsupportedOperand(kind, target, pc)` of a term whose target is not handled (60_exceptions.md R128). -/
def raiseUnsupportedOperand (kind : Kind) (target : TargetTag) (s : State) : Host.Outcome State Fault Refusal :=
  .next (s.takeFault (.unsupportedOperand kind target s.pc))

/-- What a step request answers in a terminal status: "performs no step", no fetch and no change of state
(40_engine.md R79, R95; the spec's decisions D4, D5, D18, log 7). -/
def stoppedStep (s : State) : Host.Outcome State Fault Refusal := .next s

end Sys2Proof.Machine
end

