-- ==== Sys2Proof/Machine/Operands.lean ====
section
/-! DEFINITION. The register pairs as operands (10_state.md R21 to R23). The 8-bit register operands are
`State.readReg` and `State.writeReg` of Machine/Ops.lean; the targets Imm8 and Mem(HL) are never read
(30_encoding.md R69, 20_memory.md R48). -/

namespace Sys2Proof.Machine

/-- `(high << 8) | low` (R21). -/
def joinBytes (high low : Byte) : Word := (high.zeroExtend 16 <<< 8) ||| low.zeroExtend 16

/-- Bits 15:8 (R22). -/
def highByte (v : Word) : Byte := (v >>> 8).truncate 8

/-- Bits 7:0 (R22). -/
def lowByte (v : Word) : Byte := v.truncate 8

/-- `pair[p]` (R21). -/
def State.readPair (s : State) (p : Pair) : Word := joinBytes (s.readReg p.high) (s.readReg p.low)

/-- `pair[p] <- v` (R22): both registers, no other effect. -/
def State.writePair (s : State) (p : Pair) (v : Word) : State :=
  (s.writeReg p.high (highByte v)).writeReg p.low (lowByte v)

end Sys2Proof.Machine
end

