-- ==== Sys2Proof/Machine/Flags.lean ====
section
/-! DEFINITION. The flags: their byte form (10_state.md R25 to R27) and the results and flags of the
three arithmetic operations (42_alu8.md R103 to R105, 43_inc16.md R117). -/

namespace Sys2Proof.Machine

/-- `to_byte(F)` (R26): Z, N, H, C in bits 7, 6, 5, 4; bits 3:0 are zero. -/
def Flags.toByte (f : Flags) : Byte :=
  ((BitVec.ofBool f.z).zeroExtend 8 <<< 7) ||| ((BitVec.ofBool f.n).zeroExtend 8 <<< 6) |||
  ((BitVec.ofBool f.h).zeroExtend 8 <<< 5) ||| ((BitVec.ofBool f.c).zeroExtend 8 <<< 4)

/-- `from_byte(b)` (R27): "extracts the four booleans, ignoring the low nibble". -/
def Flags.fromByte (b : Byte) : Flags :=
  { z := b.getLsbD 7, n := b.getLsbD 6, h := b.getLsbD 5, c := b.getLsbD 4 }

/-- The exact sum of two bytes, 0 to 510 (42_alu8.md R103). -/
def add8Sum (a b : Byte) : Word := a.zeroExtend 16 + b.zeroExtend 16

/-- `ADD8`: the sum modulo 256 (42_alu8.md R103). -/
def add8 (a b : Byte) : Byte := (add8Sum a b).truncate 8

/-- The flags of `ADD8` (42_alu8.md R104). -/
def add8Flags (a b : Byte) : Flags :=
  { z := decide (add8 a b = 0x00#8)
    n := false
    h := decide ((a &&& 0x0F#8) + (b &&& 0x0F#8) > 0x0F#8)
    c := decide (add8Sum a b > 0x00FF#16) }

/-- `INC8`: the increment modulo 256 (42_alu8.md R105). -/
def inc8 (v : Byte) : Byte := v + 0x01#8

/-- The flags of `INC8` (42_alu8.md R105): the carry flag keeps its old value. -/
def inc8Flags (v : Byte) (old : Flags) : Flags :=
  { z := decide (inc8 v = 0x00#8)
    n := false
    h := decide (v &&& 0x0F#8 = 0x0F#8)
    c := old.c }

/-- `INC16`: the increment modulo 65536; it writes no flag (43_inc16.md R117). -/
def inc16 (w : Word) : Word := w + 0x0001#16

end Sys2Proof.Machine
end

