-- ==== Sys2Proof/Machine/Alu8.lean ====
section
/-! DEFINITION. The 8-bit arithmetic: Add(r) and Inc(r) over every 8-bit register, and the two that have
a byte, ADD A,C and INC B (42_alu8.md). -/

namespace Sys2Proof.Machine

/-- Add(r) (R106): A becomes A + x[r]; all four flags are written; both operands are read before the
write. -/
def execAddReg (r : Reg8) (s : State) : Host.Outcome State Fault Refusal :=
  .next (((s.writeReg .a (add8 (s.readReg .a) (s.readReg r))).writeFlags
    (add8Flags (s.readReg .a) (s.readReg r))).commitPc .seq)

/-- Inc(r) (R110): x[r] becomes x[r] + 1; Z, N, H are written and C is not. The `pc` of an increment is the
spec's decision D3 (log 2). -/
def execIncReg (r : Reg8) (s : State) : Host.Outcome State Fault Refusal :=
  .next (((s.writeReg r (inc8 (s.readReg r))).writeFlags (inc8Flags (s.readReg r) s.flags)).commitPc .seq)

/-- ADD A,C (R108). -/
def execAddAC (s : State) : Host.Outcome State Fault Refusal := execAddReg .c s

/-- INC B (R111). -/
def execIncB (s : State) : Host.Outcome State Fault Refusal := execIncReg .b s

end Sys2Proof.Machine
end

