-- ==== Sys2Proof/Machine/Control.lean ====
section
/-! DEFINITION. The control instructions NOP and HALT (41_control.md). -/

namespace Sys2Proof.Machine

/-- NOP (R98): `pc` only. -/
def execNop (s : State) : Host.Outcome State Fault Refusal := .next (s.commitPc .seq)

/-- HALT (R100): the halt flag, and `pc` becomes 0x0000. -/
def execHalt (s : State) : Host.Outcome State Fault Refusal := .next (s.setHalted.commitPc .zero)

end Sys2Proof.Machine
end

