-- ==== Sys2Proof/Machine/Inc16.lean ====
section
/-! DEFINITION. The 16-bit pair increment: Inc(p) over every pair, and the two that have a byte, INC BC and
INC DE (43_inc16.md). -/

namespace Sys2Proof.Machine

/-- Inc(p) (R117): pair[p] becomes pair[p] + 1; "no flags are affected at all". The `pc` of an increment is
the spec's decision D3 (log 2). -/
def execIncPair (p : Pair) (s : State) : Host.Outcome State Fault Refusal :=
  .next ((s.writePair p (inc16 (s.readPair p))).commitPc .seq)

/-- INC BC (R119). -/
def execIncBC (s : State) : Host.Outcome State Fault Refusal := execIncPair .bc s

/-- INC DE (R120). -/
def execIncDE (s : State) : Host.Outcome State Fault Refusal := execIncPair .de s

end Sys2Proof.Machine
end

