-- ==== Sys2Proof/Machine/Execute.lean ====
section
/-! DEFINITION. Execute control over instruction terms (40_engine.md R85): the exhaustive match over every
kind and target, the terms no byte decodes to among them (60_exceptions.md R128, R129). -/

namespace Sys2Proof.Machine

/-- Add(t) (42_alu8.md R106, R107). -/
def execAddTarget (t : Target) (s : State) : Host.Outcome State Fault Refusal :=
  match t with
  | .reg r => execAddReg r s
  | .pair p => raiseUnsupportedOperand .add p.tag s
  | .imm8 _ => raiseUnsupportedOperand .add .imm8 s
  | .memHL => raiseUnsupportedOperand .add .memHL s

/-- Inc(t) (42_alu8.md R110, 43_inc16.md R117, R118). -/
def execIncTarget (t : Target) (s : State) : Host.Outcome State Fault Refusal :=
  match t with
  | .reg r => execIncReg r s
  | .pair p => execIncPair p s
  | .imm8 _ => raiseUnsupportedOperand .inc .imm8 s
  | .memHL => raiseUnsupportedOperand .inc .memHL s

/-- `execute(instr, addr)` on a term (R85). -/
def execTerm (t : Term) (s : State) : Host.Outcome State Fault Refusal :=
  match t with
  | .nop => execNop s
  | .halt => execHalt s
  | .add t => execAddTarget t s
  | .inc t => execIncTarget t s

/-- Executing a term directly, without a fetch: only a RUNNING core executes (40_engine.md R79). -/
def stepTerm (t : Term) (s : State) : Host.Outcome State Fault Refusal :=
  match s.status with
  | .running => execTerm t s
  | .halted => stoppedStep s
  | .faulted => stoppedStep s

end Sys2Proof.Machine
end

