-- ==== Sys2Proof/Machine/Dispatch.lean ====
section
/-! DEFINITION. One arm for each instruction of the opcode table (40_engine.md R85). -/

namespace Sys2Proof.Machine

def exec (i : Instr) (s : State) : Host.Outcome State Fault Refusal :=
  match i with
  | .nop => Sys2Proof.Machine.execNop s
  | .incBC => Sys2Proof.Machine.execIncBC s
  | .incB => Sys2Proof.Machine.execIncB s
  | .incDE => Sys2Proof.Machine.execIncDE s
  | .halt => Sys2Proof.Machine.execHalt s
  | .addAC => Sys2Proof.Machine.execAddAC s

end Sys2Proof.Machine
end

