-- ==== Sys2Proof/Machine/Step.lean ====
section
/-! DEFINITION. One step of the core: fetch, decode, execute, commit (40_engine.md R80). -/

namespace Sys2Proof.Machine

/-- `step()` (R80), for a RUNNING core; in a terminal status no step is performed (R79, R95). -/
def step (s : State) : Host.Outcome State Fault Refusal :=
  match s.status with
  | .running =>
    match decodeByte s.fetch with
    | some i => exec i s
    | none => raiseUnknownOpcode s
  | .halted => stoppedStep s
  | .faulted => stoppedStep s

/-- The instruction stored where the next step fetches it: one byte at `pc`, as the host's load would
(40_engine.md R93; log 8). -/
def State.withFetchWord (s : State) (nbits w : Nat) : State := s.writeMem s.pc (wordByte nbits w)

end Sys2Proof.Machine
end

