-- ==== Sys2Proof/Machine/HostInterface.lean ====
section
/-! DEFINITION. The host interface (40_engine.md R91 to R97; 70_reset_and_hazards.md R142 to R147): the
writes before the first step, the two requests, the reads at step boundaries, and what has no move. -/

namespace Sys2Proof.Machine

/-! ## Writes before the first step (R93) -/

/-- What the host may write; `pc`, `halted` and the fault record are not among it (R93). -/
inductive HostWrite where
  | mem (a : Word) (v : Byte)
  | reg (r : Reg8) (v : Byte)
  | flags (f : Flags)
  | flagsByte (b : Byte)
deriving DecidableEq, Repr

/-- A place the host may write (70_reset_and_hazards.md R147). -/
inductive HostLoc where
  | mem (a : Word)
  | reg (r : Reg8)
  | flags
deriving DecidableEq, Repr

/-- The place a host write goes to. -/
def hostLoc : HostWrite → HostLoc
  | .mem a _ => .mem a
  | .reg r _ => .reg r
  | .flags _ => .flags
  | .flagsByte _ => .flags

/-- The effect of one host write (R93); a flags byte goes through `from_byte`, which discards bits 3:0. -/
def hostWrite (w : HostWrite) (s : State) : State :=
  match w with
  | .mem a v => s.writeMem a v
  | .reg r v => s.writeReg r v
  | .flags f => s.writeFlags f
  | .flagsByte b => s.writeFlags (Flags.fromByte b)

/-- Host writes one after another. -/
def hostWrites : List HostWrite → State → State
  | [], s => s
  | w :: ws, s => hostWrites ws (hostWrite w s)

/-! ## The run (R91, R92) -/

/-- `run()` under fuel: the first terminal state, if at most `fuel` steps reach one. Running out of fuel is
"no result", never a terminal state (R92). -/
def runFuel : Nat → State → Option State
  | 0, s => if s.status = .running then none else some s
  | fuel + 1, s =>
    if s.status = .running then
      match step s with
      | .next t => runFuel fuel t
      | .fault _ => none
      | .refused _ => none
    else some s

/-! ## Reads (R94) -/

/-- What the host may read (R94). -/
inductive HostQuery where
  | reg (r : Reg8)
  | pair (p : Pair)
  | flags
  | flagsByte
  | pc
  | halted
  | faultRecord
  | mem (a : Word)
  | status
deriving DecidableEq, Repr

/-- The value a host read returns. -/
inductive HostValue where
  | byte (v : Byte)
  | word (v : Word)
  | flags (f : Flags)
  | bit (b : Bool)
  | record (r : FaultRecord)
  | status (x : Status)
deriving DecidableEq, Repr

/-- A host read (R94). -/
def hostRead (q : HostQuery) (s : State) : HostValue :=
  match q with
  | .reg r => .byte (s.readReg r)
  | .pair p => .word (s.readPair p)
  | .flags => .flags s.flags
  | .flagsByte => .byte s.flags.toByte
  | .pc => .word s.pc
  | .halted => .bit s.halted
  | .faultRecord => .record s.fault
  | .mem a => .byte (s.mem.read a)
  | .status => .status s.status

/-! ## The session of one core instance (R93 to R96, R142, R147) -/

/-- One instance with the host's side of it: whether a step or a run has been asked for, which ends the
host's leave to write (R93). `started` is the model's record, not state of the core (log 9). -/
structure Session where
  core : State
  started : Bool
deriving DecidableEq, Repr

/-- Reset is the creation of an instance (R142). -/
def Session.reset : Session := { core := State.reset, started := false }

/-- What the host does (R96). -/
inductive HostAction where
  | write (w : HostWrite)
  | step
  | run (fuel : Nat)
  | read (q : HostQuery)
deriving DecidableEq, Repr

/-- What the host gets back (R94, R95). -/
inductive HostReply where
  | done
  | success
  | halted
  | faulted (r : FaultRecord)
  | value (v : HostValue)
deriving DecidableEq, Repr

/-- The status a request made in a terminal status returns (R95). -/
def statusReply (s : State) : HostReply :=
  match s.status with
  | .running => .success
  | .halted => .halted
  | .faulted => .faulted s.fault

/-- What a `step()` that ran returns: "either success or the fault raised" (R95). -/
def steppedReply (t : State) : HostReply :=
  match t.status with
  | .running => .success
  | .halted => .success
  | .faulted => .faulted t.fault

/-- The `step()` request (R95). -/
def stepRequest (s : State) : Option (State × HostReply) :=
  if s.status = .running then
    match step s with
    | .next t => some (t, steppedReply t)
    | .fault _ => none
    | .refused _ => none
  else some (s, statusReply s)

/-- The `run()` request (R91, R95); no result when the fuel ends first (R92, R96). -/
def runRequest (fuel : Nat) (s : State) : Option (State × HostReply) :=
  match runFuel fuel s with
  | some t => some (t, statusReply t)
  | none => none

/-- One action of the host. A write after the first step has no move (R96), nor has a run that does not
end. -/
def Session.act (x : Session) : HostAction → Option (Session × HostReply)
  | .write w => if x.started then none else some ({ x with core := hostWrite w x.core }, .done)
  | .step => (stepRequest x.core).map fun r => ({ core := r.1, started := true }, r.2)
  | .run fuel => (runRequest fuel x.core).map fun r => ({ core := r.1, started := true }, r.2)
  | .read q => some (x, .value (hostRead q x.core))

/-- The session after a list of actions, if each has its move. -/
def Session.acts (x : Session) : List HostAction → Option Session
  | [] => some x
  | a :: as =>
    match x.act a with
    | some (y, _) => y.acts as
    | none => none

/-! ## Several instances (60_exceptions.md R139, 70_reset_and_hazards.md R142) -/

/-- A new instance beside the others; each starts at reset (R142). -/
def createInstance (xs : List Session) : List Session := xs ++ [Session.reset]

/-- One action on one of several instances; they "share no state" (R139). -/
def actOn (xs : List Session) (k : Nat) (a : HostAction) : Option (List Session × HostReply) :=
  match xs[k]? with
  | none => none
  | some x =>
    match x.act a with
    | none => none
    | some (y, r) => some (xs.set k y, r)

end Sys2Proof.Machine
end

