-- ==== Sys2Proof/Machine/Assembler.lean ====
section
/-! DEFINITION. The program notation of 30_encoding.md R74: one instruction a line, labels, `.org` and
`.byte`, and the host writes that place such a program in memory (70_reset_and_hazards.md R144). There is
no pseudo-instruction (R75). -/

namespace Sys2Proof.Machine

/-- One line of a program (30_encoding.md R74). -/
inductive AsmLine where
  /-- `name:`, the address of the next instruction. -/
  | label (name : List Char)
  /-- `.org addr`, the address of the next byte. -/
  | org (a : Word)
  /-- `.byte v`, one raw byte. -/
  | byte (v : Byte)
  /-- An instruction by its spelling. -/
  | ins (i : Instr)
deriving DecidableEq, Repr

/-- The writes that place the lines, the next byte at `at_` (log 11: the address after 0xFFFF is 0x0000). -/
def assembleFrom (at_ : Word) : List AsmLine → List HostWrite
  | [] => []
  | .label _ :: rest => assembleFrom at_ rest
  | .org a :: rest => assembleFrom a rest
  | .byte v :: rest => .mem at_ v :: assembleFrom (at_ + 0x0001#16) rest
  | .ins i :: rest => .mem at_ (encode i) :: assembleFrom (at_ + 0x0001#16) rest

/-- The writes that place a program; with no `.org` it starts at 0x0000 (log 11). -/
def assemble (lines : List AsmLine) : List HostWrite := assembleFrom 0x0000#16 lines

/-- The address of each label: that "of the next instruction" (30_encoding.md R74). Where no instruction follows it
directly (before `.org`, before `.byte`, at the end of the text) R74 gives no address, and the model gives that of
the next byte as it stands at the label, before any `.org` after it: DESIGN CHOICE, log 11. No instruction uses
a label. -/
def labelsFrom (at_ : Word) : List AsmLine → List (List Char × Word)
  | [] => []
  | .label n :: rest => (n, at_) :: labelsFrom at_ rest
  | .org a :: rest => labelsFrom a rest
  | .byte _ :: rest => labelsFrom (at_ + 0x0001#16) rest
  | .ins _ :: rest => labelsFrom (at_ + 0x0001#16) rest

/-! ## The text of a program (30_encoding.md R74, with the literals of 00_scope.md R10) -/

/-- The line without its comment (`;` starts one). -/
def cutComment : List Char → List Char
  | [] => []
  | c :: cs => if c = ';' then [] else c :: cutComment cs

/-- The line without the blanks before it. -/
def trimLeft : List Char → List Char
  | [] => []
  | c :: cs => if c = ' ' then trimLeft cs else c :: cs

/-- The line without its comment and the blanks around it. -/
def lineText (w : List Char) : List Char := (trimLeft (trimLeft (cutComment w)).reverse).reverse

/-- The value of a digit in bases up to 16; a hexadecimal letter may be of either case (log 11). -/
def digitValue (c : Char) : Option Nat :=
  if 48 ≤ c.toNat ∧ c.toNat ≤ 57 then some (c.toNat - 48)
  else if 65 ≤ c.toNat ∧ c.toNat ≤ 70 then some (c.toNat - 55)
  else if 97 ≤ c.toNat ∧ c.toNat ≤ 102 then some (c.toNat - 87)
  else none

/-- The digits of a number in a base, after the value `acc` of those before. -/
def digitsValue (base acc : Nat) : List Char → Option Nat
  | [] => some acc
  | c :: cs =>
    match digitValue c with
    | some d => if d < base then digitsValue base (acc * base + d) cs else none
    | none => none

/-- A literal: hexadecimal `0x..`, binary `0b..` (00_scope.md R10), or decimal (log 11). -/
def literalValue (w : List Char) : Option Nat :=
  match w with
  | [] => none
  | ['0', 'x'] => none
  | ['0', 'b'] => none
  | '0' :: 'x' :: ds => digitsValue 16 0 ds
  | '0' :: 'b' :: ds => digitsValue 2 0 ds
  | ds => digitsValue 10 0 ds

/-- The argument of a directive: a literal below a bound; one at or over it makes the line none of R74's (log 11). -/
def directiveValue (bound : Nat) (w : List Char) : Option Nat :=
  match literalValue (trimLeft w) with
  | some n => if n < bound then some n else none
  | none => none

/-- A line that is no instruction: a label, `.org` or `.byte` (30_encoding.md R74). R74 writes a label as `name:`
and does not say which characters a name holds; the model takes any text of at least one character before a final
`:`, blanks and mnemonics among it, that is no directive: DESIGN CHOICE, log 11. -/
def directiveLine (w : List Char) : Option AsmLine :=
  match w with
  | '.' :: 'o' :: 'r' :: 'g' :: ' ' :: v => (directiveValue 65536 v).map fun n => .org (BitVec.ofNat 16 n)
  | '.' :: 'b' :: 'y' :: 't' :: 'e' :: ' ' :: v => (directiveValue 256 v).map fun n => .byte (BitVec.ofNat 8 n)
  | w => if w.getLast? = some ':' ∧ 1 < w.length then some (.label w.dropLast) else none

/-- One line of text; a blank line or a comment places nothing. -/
def parseLine (w : List Char) : Option (List AsmLine) :=
  match lineText w with
  | [] => some []
  | text =>
    match instrOfSpelling text with
    | some i => some [.ins i]
    | none => (directiveLine text).map fun l => [l]

/-- The lines of a text, each to be parsed, or none if one is not of R74's form. -/
def parseLines : List (List Char) → Option (List AsmLine)
  | [] => some []
  | w :: ws =>
    match parseLine w, parseLines ws with
    | some ls, some rest => some (ls ++ rest)
    | _, _ => none

end Sys2Proof.Machine
end

