-- ==== Sys2Proof/Machine/Datapath.lean ====
section
/-! DEFINITION. The block-level view of one step (40_engine.md R78): fetch unit (R81), decoder block
(30_encoding.md R76), execute control (R85), register file ports (R90), ALU (42_alu8.md R102) and program
counter controller (R86, R87), joined by the signals those rules name. It says the same machine a second
time; `step` does not use it. A signal no rule drives is a free value of Config (log 10). -/

namespace Sys2Proof.Machine

/-! ## Fetch unit and decoder -/

/-- The fetch unit's outputs (40_engine.md R81). -/
structure FetchOut where
  memRaddr : Word
  opcode : Byte
  fetchAddr : Word
deriving DecidableEq, Repr

/-- The fetch unit: one `MemRead(pc, 1)` (R81). -/
def fetchUnit (m : Memory) (pc : Word) : FetchOut :=
  { memRaddr := pc, opcode := m.read pc, fetchAddr := pc }

/-- The decoder block's outputs (30_encoding.md R76); the codes are `Kind.code` and `TargetTag.code`. -/
structure DecOut where
  valid : Bool
  kind : Kind
  target : TargetTag
deriving DecidableEq, Repr

/-- The decoder block (R76), byte by byte as its table gives it. -/
def decoderBlock (opcode : Byte) : DecOut :=
  match opcode with
  | 0x00#8 => { valid := true, kind := .nop, target := .a }
  | 0x03#8 => { valid := true, kind := .inc, target := .bc }
  | 0x04#8 => { valid := true, kind := .inc, target := .b }
  | 0x13#8 => { valid := true, kind := .inc, target := .de }
  | 0x76#8 => { valid := true, kind := .halt, target := .a }
  | 0x81#8 => { valid := true, kind := .add, target := .c }
  | _ => { valid := false, kind := .nop, target := .a }

/-! ## ALU -/

/-- `alu_op` (42_alu8.md R102). -/
inductive AluOp where
  | add8 | inc8 | inc16 | none
deriving DecidableEq, Repr

/-- The 2-bit code of `alu_op` (R102). -/
def AluOp.code : AluOp → BitVec 2
  | .add8 => 0#2
  | .inc8 => 1#2
  | .inc16 => 2#2
  | .none => 3#2

/-- The ALU's inputs (R102). -/
structure AluIn where
  op : AluOp
  a : Byte
  b : Byte
  w : Word
  fOld : Flags
deriving DecidableEq, Repr

/-- The ALU's outputs (R102); `fwe` holds the four write enables. -/
structure AluOut where
  r8 : Byte
  r16 : Word
  f : Flags
  fwe : Flags
deriving DecidableEq, Repr

/-- Four flags as the four bits Z, N, H, C. -/
def Flags.toNibble (f : Flags) : BitVec 4 := f.toByte.extractLsb' 4 4

/-- The four bits Z, N, H, C as flags. -/
def Flags.ofNibble (x : BitVec 4) : Flags :=
  { z := x.getLsbD 3, n := x.getLsbD 2, h := x.getLsbD 1, c := x.getLsbD 0 }

/-- `alu_r8` where the operation does not compute it. -/
def AluIn.freeR8 (x : AluIn) : Byte := Config.undrivenR8 x.op.code x.a x.b x.w x.fOld.toNibble

/-- `alu_r16` where the operation does not compute it. -/
def AluIn.freeR16 (x : AluIn) : Word := Config.undrivenR16 x.op.code x.a x.b x.w x.fOld.toNibble

/-- `alu_f` where the operation computes no flag. -/
def AluIn.freeF (x : AluIn) : Flags := Flags.ofNibble (Config.undrivenF x.op.code x.a x.b x.w x.fOld.toNibble)

/-- The ALU: combinational, its outputs depend on its inputs alone (R102 to R105, 43_inc16.md R117). -/
def alu (x : AluIn) : AluOut :=
  match x.op with
  | .add8 =>
    { r8 := add8 x.a x.b, r16 := x.freeR16, f := add8Flags x.a x.b
      fwe := { z := true, n := true, h := true, c := true } }
  | .inc8 =>
    { r8 := inc8 x.a, r16 := x.freeR16, f := inc8Flags x.a x.fOld
      fwe := { z := true, n := true, h := true, c := false } }
  | .inc16 =>
    { r8 := x.freeR8, r16 := inc16 x.w, f := x.freeF
      fwe := { z := false, n := false, h := false, c := false } }
  | .none =>
    { r8 := x.freeR8, r16 := x.freeR16, f := x.freeF
      fwe := { z := false, n := false, h := false, c := false } }

/-! ## Execute control -/

/-- The 8-bit register a target tag names, if it names one (30_encoding.md R60). -/
def targetReg8 : TargetTag → Option Reg8
  | .a => some .a
  | .b => some .b
  | .c => some .c
  | .d => some .d
  | .e => some .e
  | .h => some .h
  | .l => some .l
  | .bc => none
  | .de => none
  | .hl => none
  | .imm8 => none
  | .memHL => none

/-- The pair a target tag names, if it names one (30_encoding.md R60). -/
def targetPair : TargetTag → Option Pair
  | .bc => some .bc
  | .de => some .de
  | .hl => some .hl
  | .a => none
  | .b => none
  | .c => none
  | .d => none
  | .e => none
  | .h => none
  | .l => none
  | .imm8 => none
  | .memHL => none

/-- The signals execute control drives (40_engine.md R78, R85, R87, R90, 42_alu8.md R102). -/
structure Control where
  aluOp : AluOp
  rd8Sel : Reg8
  rd16Sel : Pair
  wr8En : Bool
  wr8Sel : Reg8
  wr16En : Bool
  wr16Sel : Pair
  haltWe : Bool
  pcSel : PcSel
  raises : FaultKind
deriving DecidableEq, Repr

/-- No write enabled, the ports idle, the program counter held: what a step that raises drives, and what every
other step starts from. Each idle select is a free value of its own (log 10). That `alu_op` is NONE on a step
that raises is the model's choice, since 42_alu8.md R102 selects NONE for Nop and Halt and names no operation for
such a step (DESIGN CHOICE, log 10); that such a step writes no flag is 60_exceptions.md R125, R128. -/
def Control.idle (d : DecOut) : Control :=
  { aluOp := .none
    rd8Sel := Config.idleRd8Sel d.valid d.kind d.target
    rd16Sel := Config.idleRd16Sel d.valid d.kind d.target
    wr8En := false
    wr8Sel := Config.idleWr8Sel d.valid d.kind d.target
    wr16En := false
    wr16Sel := Config.idleWr16Sel d.valid d.kind d.target
    haltWe := false
    pcSel := .hold
    raises := .none }

/-- Control of Add on a target tag (42_alu8.md R106, R107). -/
def controlAdd (d : DecOut) : Control :=
  match targetReg8 d.target with
  | some r => { Control.idle d with aluOp := .add8, rd8Sel := r, wr8En := true, wr8Sel := .a, pcSel := .seq }
  | none => { Control.idle d with raises := .unsupportedOperand }

/-- Control of Inc on a target tag (42_alu8.md R110, 43_inc16.md R117, R118). -/
def controlInc (d : DecOut) : Control :=
  match targetReg8 d.target, targetPair d.target with
  | some r, _ => { Control.idle d with aluOp := .inc8, rd8Sel := r, wr8En := true, wr8Sel := r, pcSel := .seq }
  | none, some p => { Control.idle d with aluOp := .inc16, rd16Sel := p, wr16En := true, wr16Sel := p, pcSel := .seq }
  | none, none => { Control.idle d with raises := .unsupportedOperand }

/-- Execute control (40_engine.md R85). -/
def executeControl (d : DecOut) : Control :=
  if d.valid then
    match d.kind with
    | .nop => { Control.idle d with pcSel := .seq }
    | .halt => { Control.idle d with haltWe := true, pcSel := .zero }
    | .add => controlAdd d
    | .inc => controlInc d
  else { Control.idle d with raises := .unknownOpcode }

/-! ## Register file ports (40_engine.md R90) -/

/-- `rd_a`, `rd8`, `rd16`, `f_out`. -/
structure RegRead where
  rdA : Byte
  rd8 : Byte
  rd16 : Word
  fOut : Flags
deriving DecidableEq, Repr

/-- The read ports. -/
def regFileRead (x : Regs) (f : Flags) (c : Control) : RegRead :=
  { rdA := x.get .a
    rd8 := x.get c.rd8Sel
    rd16 := joinBytes (x.get c.rd16Sel.high) (x.get c.rd16Sel.low)
    fOut := f }

/-- The write ports of the registers, at commit. -/
def regFileWrite (x : Regs) (c : Control) (r8 : Byte) (r16 : Word) : Regs :=
  if c.wr8En then x.set c.wr8Sel r8
  else if c.wr16En then (x.set c.wr16Sel.high (highByte r16)).set c.wr16Sel.low (lowByte r16)
  else x

/-- The flag write port: "A flag whose enable is 0 keeps its value" (R90). -/
def flagsWrite (old fwe new : Flags) : Flags :=
  { z := if fwe.z then new.z else old.z
    n := if fwe.n then new.n else old.n
    h := if fwe.h then new.h else old.h
    c := if fwe.c then new.c else old.c }

/-! ## The joined step -/

/-- The ALU's operands: the accumulator and the 8-bit port for ADD8, the 8-bit port for INC8, the 16-bit
port for INC16 (42_alu8.md R102). -/
def aluInputs (d : DecOut) (c : Control) (p : RegRead) : AluIn :=
  { op := c.aluOp
    a := match c.aluOp with
      | .add8 => p.rdA
      | .inc8 => p.rd8
      | .inc16 => Config.undrivenA d.valid d.kind d.target
      | .none => Config.undrivenA d.valid d.kind d.target
    b := match c.aluOp with
      | .add8 => p.rd8
      | .inc8 => Config.undrivenB d.valid d.kind d.target
      | .inc16 => Config.undrivenB d.valid d.kind d.target
      | .none => Config.undrivenB d.valid d.kind d.target
    w := match c.aluOp with
      | .inc16 => p.rd16
      | .add8 => Config.undrivenW d.valid d.kind d.target
      | .inc8 => Config.undrivenW d.valid d.kind d.target
      | .none => Config.undrivenW d.valid d.kind d.target
    fOld := p.fOut }

/-- The fault record after the step (60_exceptions.md R125, R128). -/
def faultWrite (c : Control) (d : DecOut) (f : FetchOut) (old : FaultRecord) : FaultRecord :=
  match c.raises with
  | .none => old
  | .unknownOpcode => .unknownOpcode f.fetchAddr f.opcode
  | .unsupportedOperand => .unsupportedOperand d.kind d.target f.fetchAddr

/-- The blocks joined, for the decoder outputs `d` and the fetch outputs `f` (R78, R84). -/
def datapathExec (d : DecOut) (f : FetchOut) (s : State) : State :=
  let c := executeControl d
  let p := regFileRead s.regs s.flags c
  let o := alu (aluInputs d c p)
  { regs := regFileWrite s.regs c o.r8 o.r16
    flags := flagsWrite s.flags o.fwe o.f
    pc := if pcWe c.pcSel then nextPc c.pcSel s.pc else s.pc
    halted := c.haltWe || s.halted
    fault := faultWrite c d f s.fault
    mem := s.mem }

/-- One step of the block-level core (R78 to R81): only when RUNNING. -/
def datapathStep (s : State) : State :=
  match s.status with
  | .running => datapathExec (decoderBlock (fetchUnit s.mem s.pc).opcode) (fetchUnit s.mem s.pc) s
  | .halted => s
  | .faulted => s

end Sys2Proof.Machine
end

