-- ==== Sys2Proof/Safety.lean ====
section
/-! DEFINITION. What claims say about runs: the invariant of the state, the terminal states, a run that
never faults, and the bytes that end a run. -/

namespace Sys2Proof.Machine

/-- A terminal state: HALTED or FAULTED (10_state.md R34, 40_engine.md R79). -/
def State.Terminal (s : State) : Prop := s.status ≠ .running

/-- The state after `n` steps from `s` is `t` (20_memory.md R54: "Steps happen one after another"). -/
def StepsTo (n : Nat) (s t : State) : Prop := Host.Core.run Sys2Proof.core n s = .next t

/-- A run that never faults, however many steps it takes. -/
def SafeRun (s : State) : Prop := ∀ n t, StepsTo n s t → t.status ≠ .faulted

/-- A byte that ends a run when it is executed: HALT, or one of the 250 that do not decode
(70_reset_and_hazards.md R146). -/
def stopsRun (b : Byte) : Bool :=
  match decodeByte b with
  | some .halt => true
  | some .nop => false
  | some .incBC => false
  | some .incB => false
  | some .incDE => false
  | some .addAC => false
  | none => true

/-- What holds of every state a session reaches, and of more: memory is canonical; a halted core stands at
pc 0x0000 with no fault (R100, R34); a fault record is clear, or is the one the byte at pc raises, or is
the one an unsupported term raises at pc (60_exceptions.md R125, R127, R128). -/
structure State.Inv (s : State) : Prop where
  memWf : s.mem.wf = true
  haltedAtZero : s.halted = true → s.pc = 0x0000#16 ∧ s.fault = .clear
  faultMatches : s.fault = .clear ∨
    (s.fault = .unknownOpcode s.pc s.fetch ∧ decodeByte s.fetch = none) ∨
    (∃ t : Term, t.supported = false ∧ s.fault = .unsupportedOperand t.kind t.tag s.pc)

/-- What holds of every session: the core's invariant, and before the first request a core that stands at
its start, RUNNING at pc 0x0000 (10_state.md R41, 70_reset_and_hazards.md R145). -/
structure Session.Inv (x : Session) : Prop where
  core : x.core.Inv
  fresh : x.started = false → x.core.status = .running ∧ x.core.pc = 0x0000#16

end Sys2Proof.Machine
end

