-- ==== Sys2Proof/Certificates/Slice0/Obligations.lean ====
section
/-! DEFINITION. The statements for the provers. Each docstring names the rule or the section of spec/ it
rests on, and the spec's own decision or the log entry where a clause rests on one. -/

open Sys2Proof
open Sys2Proof.Machine

/-! ## Encoding -/

/-- 30_encoding.md R61, R64: the six bytes decode to their instructions, every other byte to none, and
there are 250 of those. -/
def Obligations.DecodesExactlyTheSixBytes : Prop :=
  decodeTerm 0x00#8 = some .nop ∧
  decodeTerm 0x03#8 = some (.inc (.pair .bc)) ∧
  decodeTerm 0x04#8 = some (.inc (.reg .b)) ∧
  decodeTerm 0x13#8 = some (.inc (.pair .de)) ∧
  decodeTerm 0x76#8 = some .halt ∧
  decodeTerm 0x81#8 = some (.add (.reg .c)) ∧
  (∀ b : Byte, b ≠ 0x00#8 → b ≠ 0x03#8 → b ≠ 0x04#8 → b ≠ 0x13#8 → b ≠ 0x76#8 → b ≠ 0x81#8 →
    decodeTerm b = none) ∧
  (List.range 256).countP (fun n => (decodeTerm (BitVec.ofNat 8 n)).isNone) = 250

/-- 30_encoding.md section 7 (the decoder block's table; its codes are the spec's decisions D6, D14). -/
def Obligations.DecoderBlockDrivesItsTable : Prop :=
  (∀ b : Byte, (decoderBlock b).valid = (decodeByte b).isSome) ∧
  (∀ (b : Byte) (i : Instr), decodeByte b = some i →
    (decoderBlock b).kind = i.term.kind ∧ (decoderBlock b).target = i.term.tag) ∧
  (∀ b : Byte, decodeByte b = none →
    (decoderBlock b).kind.code = 0#2 ∧ (decoderBlock b).target.code = 0#4) ∧
  (decoderBlock 0x03#8).kind.code = 3#2 ∧ (decoderBlock 0x03#8).target.code = 7#4 ∧
  (decoderBlock 0x04#8).kind.code = 3#2 ∧ (decoderBlock 0x04#8).target.code = 1#4 ∧
  (decoderBlock 0x13#8).kind.code = 3#2 ∧ (decoderBlock 0x13#8).target.code = 8#4 ∧
  (decoderBlock 0x76#8).kind.code = 1#2 ∧ (decoderBlock 0x76#8).target.code = 0#4 ∧
  (decoderBlock 0x81#8).kind.code = 2#2 ∧ (decoderBlock 0x81#8).target.code = 2#4

/-- 30_encoding.md section 5 (decode and encode agree on the six rows, marked derived there), over every
byte and every term, those with an immediate and those with no byte among them. -/
def Obligations.TermDecodeAndEncodeAgree : Prop :=
  (∀ (b : Byte) (t : Term), decodeTerm b = some t ↔ encodeTerm t = some b) ∧
  (∀ t : Term, (encodeTerm t).isSome = t.encodable) ∧
  (∀ t : Term, t.encodable = true → t.supported = true)

/-- 30_encoding.md sections 2, 4 and 5: a list of instructions encodes to as many bytes and decodes back to
itself; a list of bytes that decodes is the encoding of what it decodes to; the first byte that is none of
the six stops the decoding with its value. -/
def Obligations.InstructionStreamsRoundTrip : Prop :=
  (∀ (i : Instr) (rest : List Byte), i.wf = true → decode (encode i :: rest) = .ok (i, rest)) ∧
  (∀ is : List Instr, (encodeStream is).length = is.length ∧ decodeStream (encodeStream is) = .ok is) ∧
  (∀ (bs : List Byte) (is : List Instr), decodeStream bs = .ok is → encodeStream is = bs) ∧
  (∀ (is : List Instr) (b : Byte) (rest : List Byte), decodeByte b = none →
    decodeStream (encodeStream is ++ b :: rest) = .error (.unknownOpcode b))

/-- 30_encoding.md section 6, 70_reset_and_hazards.md section 2: a program of at most 65536 instructions
assembled at any address and written by the host is what the memory then decodes to, instruction by
instruction, and every other byte is untouched. (The wrap of addresses is log 11.) -/
def Obligations.AssembledProgramIsWhatMemoryHolds : Prop :=
  ∀ (s : State) (a : Word) (is : List Instr), s.mem.wf = true → is.length ≤ 65536 →
    (∀ (k : Nat) (i : Instr), is[k]? = some i →
      decodeByte ((hostWrites (assemble (.org a :: is.map .ins)) s).mem.read (a + BitVec.ofNat 16 k)) = some i) ∧
    (∀ b : Word, is.length ≤ (b - a).toNat →
      (hostWrites (assemble (.org a :: is.map .ins)) s).mem.read b = s.mem.read b) ∧
    (hostWrites (assemble (.org a :: is.map .ins)) s).mem.wf = true ∧
    { hostWrites (assemble (.org a :: is.map .ins)) s with mem := s.mem } = s

/-! ## State -/

/-- 10_state.md section 9, 70_reset_and_hazards.md section 1: the reset state. The registers', flags' and
fault record's values are the spec's decisions D7, D8, D6 (logs 3, 4, 5). -/
def Obligations.ResetLeavesEveryPieceOfStateZero : Prop :=
  (∀ r : Reg8, State.reset.readReg r = 0x00#8) ∧
  (∀ p : Pair, State.reset.readPair p = 0x0000#16) ∧
  State.reset.flags.z = false ∧ State.reset.flags.n = false ∧
  State.reset.flags.h = false ∧ State.reset.flags.c = false ∧
  State.reset.flags.toByte = 0x00#8 ∧
  State.reset.pc = 0x0000#16 ∧
  State.reset.halted = false ∧
  State.reset.fault.kind.code = 0#2 ∧ State.reset.fault.addr = 0x0000#16 ∧
  State.reset.fault.byte = 0x00#8 ∧ State.reset.fault.instrKind.code = 0#2 ∧
  State.reset.fault.target.code = 0#4 ∧
  State.reset.status = .running ∧
  (∀ a : Word, State.reset.mem.read a = 0x00#8)

/-- The invariants hold at reset (10_state.md section 9). The invariant is the model's own. -/
def Obligations.ResetMeetsTheInvariants : Prop :=
  State.reset.Inv ∧ Session.reset.Inv

/-- 10_state.md R26, R27: the byte form of the flags, bit by bit; the low nibble is zero and is ignored. -/
def Obligations.FlagsByteFormIsBitwise : Prop :=
  (∀ f : Flags, f.toByte.getLsbD 7 = f.z ∧ f.toByte.getLsbD 6 = f.n ∧ f.toByte.getLsbD 5 = f.h ∧
    f.toByte.getLsbD 4 = f.c ∧ f.toByte.getLsbD 3 = false ∧ f.toByte.getLsbD 2 = false ∧
    f.toByte.getLsbD 1 = false ∧ f.toByte.getLsbD 0 = false) ∧
  (∀ b : Byte, (Flags.fromByte b).z = b.getLsbD 7 ∧ (Flags.fromByte b).n = b.getLsbD 6 ∧
    (Flags.fromByte b).h = b.getLsbD 5 ∧ (Flags.fromByte b).c = b.getLsbD 4) ∧
  (∀ b b' : Byte, b >>> 4 = b' >>> 4 → Flags.fromByte b = Flags.fromByte b')

/-- 10_state.md section 3 (the round trips; the second is marked derived there). -/
def Obligations.FlagsByteFormRoundTrips : Prop :=
  (∀ f : Flags, Flags.fromByte f.toByte = f ∧ f.toByte &&& 0x0F#8 = 0x00#8) ∧
  (∀ b : Byte, (Flags.fromByte b).toByte = b &&& 0xF0#8)

/-- 10_state.md section 1: seven independent registers; a write to one changes no other and nothing else; A is the
destination of Add, of ADD A,C and of every Add(r): it receives the sum modulo 256, and every other register is
unchanged. (That Add(r) executes for r other than C is the spec's decision D11, log 13.) -/
def Obligations.RegistersAreIndependentStorage : Prop :=
  (∀ (s : State) (r : Reg8) (v : Byte), (s.writeReg r v).readReg r = v) ∧
  (∀ (s : State) (r r' : Reg8) (v : Byte), r' ≠ r → (s.writeReg r v).readReg r' = s.readReg r') ∧
  (∀ (s : State) (r : Reg8) (v : Byte), { s.writeReg r v with regs := s.regs } = s) ∧
  (∀ s : State, ∃ t, exec .addAC s = .next t ∧
    (t.readReg .a).toNat = ((s.readReg .a).toNat + (s.readReg .c).toNat) % 256 ∧
    ∀ r' : Reg8, r' ≠ .a → t.readReg r' = s.readReg r') ∧
  (∀ (s : State) (r : Reg8), ∃ t, execTerm (.add (.reg r)) s = .next t ∧
    (t.readReg .a).toNat = ((s.readReg .a).toNat + (s.readReg r).toNat) % 256 ∧
    ∀ r' : Reg8, r' ≠ .a → t.readReg r' = s.readReg r')

/-- 10_state.md R21, R22, R23: a pair is its high register times 256 plus its low register; a write splits
the value over the two and does nothing else; reading and writing are inverse; a write to one of the
two registers changes the pair as R21 computes it; the pairs are disjoint and none holds A. -/
def Obligations.PairsAreViewsOfTwoRegisters : Prop :=
  (∀ s : State, (s.readPair .bc).toNat = s.regs.b.toNat * 256 + s.regs.c.toNat ∧
    (s.readPair .de).toNat = s.regs.d.toNat * 256 + s.regs.e.toNat ∧
    (s.readPair .hl).toNat = s.regs.h.toNat * 256 + s.regs.l.toNat) ∧
  (∀ (s : State) (p : Pair) (v : Word),
    ((s.writePair p v).readReg p.high).toNat = v.toNat / 256 ∧
    ((s.writePair p v).readReg p.low).toNat = v.toNat % 256 ∧
    (∀ r : Reg8, r ≠ p.high → r ≠ p.low → (s.writePair p v).readReg r = s.readReg r) ∧
    { s.writePair p v with regs := s.regs } = s) ∧
  (∀ (s : State) (p : Pair) (v : Word), (s.writePair p v).readPair p = v) ∧
  (∀ (s : State) (p : Pair), s.writePair p (s.readPair p) = s) ∧
  (∀ (s : State) (p : Pair) (v : Byte),
    ((s.writeReg p.high v).readPair p).toNat = v.toNat * 256 + (s.readReg p.low).toNat ∧
    ((s.writeReg p.low v).readPair p).toNat = (s.readReg p.high).toNat * 256 + v.toNat) ∧
  (∀ (s : State) (p q : Pair) (v : Word), p ≠ q →
    (s.writePair p v).readPair q = s.readPair q ∧ (s.writePair p v).readReg .a = s.readReg .a)

/-- Two memories in canonical form that read alike at all 65536 addresses are equal data
(20_memory.md section 1). The canonical form is the model's own. -/
def Obligations.CanonicalMemoriesThatReadAlikeAreEqual : Prop :=
  ∀ m m' : Memory, m.wf = true → m'.wf = true → (∀ a : Word, m.read a = m'.read a) → m = m'

/-! ## The host before the first step -/

/-- 70_reset_and_hazards.md section 2 (the commuting is marked derived there): host writes to different
places commute, and of two to one place the last stands. -/
def Obligations.HostWritesCommuteAndTheLastStands : Prop :=
  (∀ (s : State) (w w' : HostWrite), s.mem.wf = true → hostLoc w ≠ hostLoc w' →
    hostWrite w (hostWrite w' s) = hostWrite w' (hostWrite w s)) ∧
  (∀ (s : State) (w w' : HostWrite), s.mem.wf = true → hostLoc w = hostLoc w' →
    hostWrite w' (hostWrite w s) = hostWrite w' s)

/-- 40_engine.md section 6: before the first step every write has its move, does exactly its effect, and
touches neither pc nor the halt flag nor the fault record (the spec's decision D9); after it no write has a
move (the spec's decision D15). -/
def Obligations.HostWritesOnlyBeforeTheFirstStep : Prop :=
  (∀ (x : Session) (w : HostWrite), x.started = true → x.act (.write w) = none) ∧
  (∀ (x : Session) (w : HostWrite), x.started = false → ∃ y, x.act (.write w) = some (y, .done) ∧
    y.started = false ∧ y.core.pc = x.core.pc ∧ y.core.halted = x.core.halted ∧ y.core.fault = x.core.fault) ∧
  (∀ (x y : Session) (a : Word) (v : Byte), x.core.mem.wf = true → x.act (.write (.mem a v)) = some (y, .done) →
    y.core.mem.read a = v ∧ (∀ b, b ≠ a → y.core.mem.read b = x.core.mem.read b) ∧
    { y.core with mem := x.core.mem } = x.core) ∧
  (∀ (x y : Session) (r : Reg8) (v : Byte), x.act (.write (.reg r v)) = some (y, .done) →
    y.core.readReg r = v ∧ (∀ r', r' ≠ r → y.core.readReg r' = x.core.readReg r') ∧
    { y.core with regs := x.core.regs } = x.core) ∧
  (∀ (x y : Session) (f : Flags), x.act (.write (.flags f)) = some (y, .done) →
    y.core = { x.core with flags := f }) ∧
  (∀ (x y : Session) (b : Byte), x.act (.write (.flagsByte b)) = some (y, .done) →
    y.core.flags.toByte = b &&& 0xF0#8 ∧ { y.core with flags := x.core.flags } = x.core)

/-- 40_engine.md section 6: what the host may read, and that a read changes nothing. (Reading before the first step
is log 16.) -/
def Obligations.HostReadsChangeNothing : Prop :=
  ∀ x : Session,
    (∀ r, x.act (.read (.reg r)) = some (x, .value (.byte (x.core.readReg r)))) ∧
    (∀ p, x.act (.read (.pair p)) = some (x, .value (.word (x.core.readPair p)))) ∧
    x.act (.read .flags) = some (x, .value (.flags x.core.flags)) ∧
    x.act (.read .flagsByte) = some (x, .value (.byte x.core.flags.toByte)) ∧
    x.act (.read .pc) = some (x, .value (.word x.core.pc)) ∧
    x.act (.read .halted) = some (x, .value (.bit x.core.halted)) ∧
    x.act (.read .faultRecord) = some (x, .value (.record x.core.fault)) ∧
    (∀ a, x.act (.read (.mem a)) = some (x, .value (.byte (x.core.mem.read a))))

/-- 40_engine.md section 6: a step request on a RUNNING core performs one step and returns success or the
fault raised; in a terminal status it performs none and returns the status (the spec's decision D18). -/
def Obligations.StepRequestAnswersSuccessFaultOrStatus : Prop :=
  (∀ x : Session, x.core.status = .running → ∃ t, step x.core = .next t ∧
    ((t.status = .faulted ∧ x.act .step = some ({ core := t, started := true }, .faulted t.fault)) ∨
     (t.status ≠ .faulted ∧ x.act .step = some ({ core := t, started := true }, .success)))) ∧
  (∀ x : Session, x.core.status = .halted →
    x.act .step = some ({ core := x.core, started := true }, .halted)) ∧
  (∀ x : Session, x.core.status = .faulted →
    x.act .step = some ({ core := x.core, started := true }, .faulted x.core.fault))

/-- 60_exceptions.md section 5: of several instances an action has its move exactly when it has one on the instance it
is for, changes that one as alone and gives its reply; the others keep their state, and actions on two different
instances commute. -/
def Obligations.InstancesShareNoState : Prop :=
  (∀ (xs ys : List Session) (k : Nat) (a : HostAction) (r : HostReply), actOn xs k a = some (ys, r) →
    ys.length = xs.length ∧ (∀ j, j ≠ k → ys[j]? = xs[j]?) ∧
    ∃ x y, xs[k]? = some x ∧ x.act a = some (y, r) ∧ ys[k]? = some y) ∧
  (∀ (xs : List Session) (k : Nat) (a : HostAction) (x y : Session) (r : HostReply),
    xs[k]? = some x → x.act a = some (y, r) → actOn xs k a = some (xs.set k y, r)) ∧
  (∀ (xs ys zs : List Session) (j k : Nat) (a b : HostAction) (p q : HostReply), j ≠ k →
    actOn xs j a = some (ys, p) → actOn ys k b = some (zs, q) →
    ∃ ws, actOn xs k b = some (ws, q) ∧ actOn ws j a = some (zs, p)) ∧
  (∀ xs : List Session, (createInstance xs).length = xs.length + 1 ∧
    (createInstance xs)[xs.length]? = some Session.reset ∧
    ∀ j, j < xs.length → (createInstance xs)[j]? = xs[j]?)

/-! ## The step -/

/-- 40_engine.md section 2: on a RUNNING core the step fetches the byte at pc; the decoded instruction runs; a
byte that does not decode raises UnknownOpcode(pc, byte) and commits nothing else. That the step answers the
state with the fault record written is log 6. -/
def Obligations.StepRunsTheDecodedInstruction : Prop :=
  (∀ (s : State) (i : Instr), s.status = .running → decodeByte (s.mem.read s.pc) = some i → step s = exec i s) ∧
  (∀ s : State, s.status = .running → decodeByte (s.mem.read s.pc) = none →
    step s = .next { s with fault := .unknownOpcode s.pc (s.mem.read s.pc) })

/-- The byte placed where the next step fetches it is the instruction that runs, and no other byte changes
(40_engine.md section 2). `withFetchWord` is the model's own (log 8). -/
def Obligations.PlacedInstructionIsTheNextToRun : Prop :=
  ∀ (s : State) (i : Instr), s.status = .running → s.mem.wf = true →
    step (s.withFetchWord 8 (encode i).toNat) = exec i (s.withFetchWord 8 (encode i).toNat) ∧
    (∀ a : Word, a ≠ s.pc → (s.withFetchWord 8 (encode i).toNat).mem.read a = s.mem.read a) ∧
    { s.withFetchWord 8 (encode i).toNat with mem := s.mem } = s

/-- 60_exceptions.md section 1 (the record's codes are the spec's decision D6): on a RUNNING core exactly the
bytes that are none of the six fault; the record holds kind 1, the pc and the byte; nothing else changes;
the status is FAULTED. That the step answers this state is log 6. -/
def Obligations.IllegalByteFaultsInPlace : Prop :=
  (∀ (s : State) (b : Byte), s.status = .running → s.mem.read s.pc = b →
    b ≠ 0x00#8 → b ≠ 0x03#8 → b ≠ 0x04#8 → b ≠ 0x13#8 → b ≠ 0x76#8 → b ≠ 0x81#8 →
    ∃ t, step s = .next t ∧ t.status = .faulted ∧
      t.fault.kind.code = 1#2 ∧ t.fault.addr = s.pc ∧ t.fault.byte = b ∧
      t.fault.instrKind.code = 0#2 ∧ t.fault.target.code = 0#4 ∧
      t.pc = s.pc ∧ t.halted = false ∧ t.regs = s.regs ∧ t.flags = s.flags ∧
      (∀ a : Word, t.mem.read a = s.mem.read a)) ∧
  (∀ s t : State, s.status = .running → step s = .next t → t.status = .faulted →
    decodeByte (s.mem.read s.pc) = none)

/-- 40_engine.md section 2 (the spec's decisions D4, D5): a core that is not RUNNING takes no step, neither
from memory nor with a term. That the answer is the unchanged state is log 7. -/
def Obligations.TerminalStatusTakesNoStep : Prop :=
  (∀ s : State, s.status ≠ .running → step s = .next s) ∧
  (∀ (s : State) (i : Term), s.status ≠ .running → stepTerm i s = .next s)

/-- 60_exceptions.md section 1, 20_memory.md sections 2 and 5: every step of every state, and every term on
every state, answers a next state, with every byte of memory as it was. That a fault and a terminal status answer
one is the model's form (logs 6, 7). -/
def Obligations.EveryStepCompletesAndKeepsMemory : Prop :=
  (∀ s : State, ∃ t, step s = .next t ∧ t.mem = s.mem ∧ ∀ a : Word, t.mem.read a = s.mem.read a) ∧
  (∀ (i : Term) (s : State), ∃ t, execTerm i s = .next t ∧ t.mem = s.mem ∧
    ∀ a : Word, t.mem.read a = s.mem.read a) ∧
  (∀ (n : Nat) (s : State), ∃ t, StepsTo n s t ∧ t.mem = s.mem)

/-- 40_engine.md section 2, 20_memory.md section 2: a step's effect depends on no byte of memory but the one
at pc. -/
def Obligations.StepReadsOnlyTheByteAtPc : Prop :=
  ∀ (s t : State) (m : Memory), m.read s.pc = s.mem.read s.pc → step s = .next t →
    step { s with mem := m } = .next { t with mem := m }

/-- The model's invariant is kept by every step and by every term: memory stays canonical, a halted core
stands at pc 0x0000 without a fault, and a fault record matches what raised it (10_state.md sections 5
and 7, 60_exceptions.md section 1). -/
def Obligations.StepKeepsTheInvariant : Prop :=
  (∀ s t : State, s.Inv → step s = .next t → t.Inv) ∧
  (∀ (i : Term) (s t : State), s.Inv → stepTerm i s = .next t → t.Inv)

/-- The model's session invariant is kept by any list of the host's actions (40_engine.md section 6). -/
def Obligations.SessionKeepsTheInvariant : Prop :=
  ∀ (x y : Session) (actions : List HostAction), x.Inv → x.acts actions = some y → y.Inv

/-- 10_state.md section 4, 40_engine.md section 3 (the pc of an increment is the spec's decision D3): a step of
a RUNNING core advances pc by one modulo 65536 on five bytes, sets it to 0x0000 on HALT, and leaves it on
every other byte. -/
def Obligations.PcAfterOneStep : Prop :=
  ∀ s t : State, s.status = .running → step s = .next t →
    (∀ i, decodeByte (s.mem.read s.pc) = some i → i ≠ .halt → t.pc.toNat = (s.pc.toNat + 1) % 65536) ∧
    (decodeByte (s.mem.read s.pc) = some .halt → t.pc = 0x0000#16) ∧
    (decodeByte (s.mem.read s.pc) = none → t.pc = s.pc)

/-- 40_engine.md section 2, 10_state.md section 5 (the status FAULTED is the spec's decision D5): after a step
of a RUNNING core the status is HALTED exactly on HALT, FAULTED exactly on a byte that does not decode, RUNNING
otherwise. -/
def Obligations.StatusAfterOneStep : Prop :=
  ∀ s t : State, s.status = .running → step s = .next t →
    (t.status = .halted ↔ s.mem.read s.pc = 0x76#8) ∧
    (t.status = .faulted ↔ decodeByte (s.mem.read s.pc) = none) ∧
    (t.status = .running ↔ stopsRun (s.mem.read s.pc) = false)

/-- 10_state.md R32: the halt flag is false at reset, only HALT sets it, nothing clears it. -/
def Obligations.OnlyHaltSetsTheHaltFlag : Prop :=
  State.reset.halted = false ∧
  (∀ s t : State, step s = .next t → s.halted = true → t.halted = true) ∧
  (∀ s t : State, step s = .next t → s.halted = false → t.halted = true →
    decodeByte (s.mem.read s.pc) = some .halt) ∧
  (∀ (i : Instr) (s t : State), exec i s = .next t → s.halted = false → (t.halted = true ↔ i = .halt)) ∧
  (∀ (i : Term) (s t : State), execTerm i s = .next t → s.halted = true → t.halted = true)

/-- 10_state.md section 3 (the flag table; the rows of NOP and HALT and the clause about N are marked derived
there): which instructions leave which flags, and that no step makes N true. -/
def Obligations.FlagsAreWrittenOnlyByAddAndIncB : Prop :=
  (∀ s t : State, exec .nop s = .next t → t.flags = s.flags) ∧
  (∀ s t : State, exec .halt s = .next t → t.flags = s.flags) ∧
  (∀ s t : State, exec .incBC s = .next t → t.flags = s.flags) ∧
  (∀ s t : State, exec .incDE s = .next t → t.flags = s.flags) ∧
  (∀ s t : State, exec .incB s = .next t →
    t.flags.c = s.flags.c ∧ t.flags.n = false ∧ (t.flags.z = true ↔ t.regs.b = 0x00#8) ∧
    (t.flags.h = true ↔ s.regs.b.toNat % 16 = 15)) ∧
  (∀ s t : State, exec .addAC s = .next t →
    t.flags.n = false ∧ (t.flags.z = true ↔ t.regs.a = 0x00#8) ∧
    (t.flags.h = true ↔ 16 ≤ s.regs.a.toNat % 16 + s.regs.c.toNat % 16) ∧
    (t.flags.c = true ↔ 256 ≤ s.regs.a.toNat + s.regs.c.toNat)) ∧
  (∀ s t : State, step s = .next t → t.flags.n = true → s.flags.n = true)

/-- 10_state.md section 1 (the access table, marked derived there): which registers each instruction and each
step may change. -/
def Obligations.RegistersAreWrittenOnlyAsTheAccessTableSays : Prop :=
  (∀ (i : Instr) (s t : State), exec i s = .next t →
    (i ≠ .addAC → t.regs.a = s.regs.a) ∧
    (i ≠ .incB → i ≠ .incBC → t.regs.b = s.regs.b) ∧
    (i ≠ .incBC → t.regs.c = s.regs.c) ∧
    (i ≠ .incDE → t.regs.d = s.regs.d ∧ t.regs.e = s.regs.e) ∧
    t.regs.h = s.regs.h ∧ t.regs.l = s.regs.l ∧ t.fault = s.fault) ∧
  (∀ (n : Nat) (s t : State), StepsTo n s t → t.regs.h = s.regs.h ∧ t.regs.l = s.regs.l)

/-! ## The instructions -/

/-- 41_control.md R98: NOP, byte 0x00: pc + 1 modulo 2^16 and nothing else. -/
def Obligations.NopAdvancesPcOnly : Prop :=
  decodeByte 0x00#8 = some .nop ∧
  ∀ s : State, exec .nop s = .next { s with pc := BitVec.ofNat 16 ((s.pc.toNat + 1) % 65536) }

/-- 41_control.md (HALT): HALT, byte 0x76: the halt flag, pc 0x0000 and nothing else; a core without a fault is
then HALTED and no later step changes it. (That no step follows is the spec's decision D4, log 7.) -/
def Obligations.HaltSetsTheHaltFlagAndZeroesPc : Prop :=
  decodeByte 0x76#8 = some .halt ∧
  (∀ s : State, exec .halt s = .next { s with halted := true, pc := 0x0000#16 }) ∧
  (∀ s t : State, s.fault.kind = .none → exec .halt s = .next t →
    t.status = .halted ∧ ∀ u, step t = .next u → u = t)

/-- 42_alu8.md R108: ADD A,C, byte 0x81: the sum modulo 256 goes to A; Z, N, H, C are written; pc + 1; every
other register, the halt flag, the fault record and memory are unchanged. -/
def Obligations.AddACResultFlagsAndFrame : Prop :=
  decodeByte 0x81#8 = some .addAC ∧
  ∀ s : State, ∃ t, exec .addAC s = .next t ∧
    t.regs.a.toNat = (s.regs.a.toNat + s.regs.c.toNat) % 256 ∧
    (t.flags.z = true ↔ (s.regs.a.toNat + s.regs.c.toNat) % 256 = 0) ∧
    t.flags.n = false ∧
    (t.flags.h = true ↔ s.regs.a.toNat % 16 + s.regs.c.toNat % 16 > 15) ∧
    (t.flags.c = true ↔ s.regs.a.toNat + s.regs.c.toNat > 255) ∧
    t.pc.toNat = (s.pc.toNat + 1) % 65536 ∧
    t.regs = { s.regs with a := t.regs.a } ∧
    t.halted = s.halted ∧ t.fault = s.fault ∧ (∀ a : Word, t.mem.read a = s.mem.read a)

/-- 42_alu8.md section 3: INC B, byte 0x04: B + 1 modulo 256; Z, N, H are written and C is not; every other
register, the halt flag, the fault record and memory are unchanged. The clause pc + 1 is the spec's decision
D3 (log 2). -/
def Obligations.IncBResultFlagsAndFrame : Prop :=
  decodeByte 0x04#8 = some .incB ∧
  ∀ s : State, ∃ t, exec .incB s = .next t ∧
    t.regs.b.toNat = (s.regs.b.toNat + 1) % 256 ∧
    (t.flags.z = true ↔ s.regs.b.toNat = 255) ∧
    t.flags.n = false ∧
    (t.flags.h = true ↔ s.regs.b.toNat % 16 = 15) ∧
    t.flags.c = s.flags.c ∧
    t.pc.toNat = (s.pc.toNat + 1) % 65536 ∧
    t.regs = { s.regs with b := t.regs.b } ∧
    t.halted = s.halted ∧ t.fault = s.fault ∧ (∀ a : Word, t.mem.read a = s.mem.read a)

/-- 43_inc16.md: INC BC, byte 0x03: the pair + 1 modulo 65536, no flag; every other register, the halt flag,
the fault record and memory are unchanged. The clause pc + 1 is the spec's decision D3 (log 2). -/
def Obligations.IncBCResultAndFrame : Prop :=
  decodeByte 0x03#8 = some .incBC ∧
  ∀ s : State, ∃ t, exec .incBC s = .next t ∧
    t.regs.b.toNat * 256 + t.regs.c.toNat = (s.regs.b.toNat * 256 + s.regs.c.toNat + 1) % 65536 ∧
    t.flags = s.flags ∧
    t.pc.toNat = (s.pc.toNat + 1) % 65536 ∧
    t.regs = { s.regs with b := t.regs.b, c := t.regs.c } ∧
    t.halted = s.halted ∧ t.fault = s.fault ∧ (∀ a : Word, t.mem.read a = s.mem.read a)

/-- 43_inc16.md: INC DE, byte 0x13: the pair + 1 modulo 65536, no flag; every other register, the halt flag,
the fault record and memory are unchanged. The clause pc + 1 is the spec's decision D3 (log 2). -/
def Obligations.IncDEResultAndFrame : Prop :=
  decodeByte 0x13#8 = some .incDE ∧
  ∀ s : State, ∃ t, exec .incDE s = .next t ∧
    t.regs.d.toNat * 256 + t.regs.e.toNat = (s.regs.d.toNat * 256 + s.regs.e.toNat + 1) % 65536 ∧
    t.flags = s.flags ∧
    t.pc.toNat = (s.pc.toNat + 1) % 65536 ∧
    t.regs = { s.regs with d := t.regs.d, e := t.regs.e } ∧
    t.halted = s.halted ∧ t.fault = s.fault ∧ (∀ a : Word, t.mem.read a = s.mem.read a)

/-! ## The instruction terms -/

/-- 40_engine.md section 2: running an instruction of the table is executing the term it decodes to. -/
def Obligations.InstructionsRunAsTheirTerms : Prop :=
  ∀ (i : Instr) (s : State), exec i s = execTerm i.term s

/-- 42_alu8.md section 2 (the terms other than Add(C) are the spec's decisions D11, D12): Add(r) for every
8-bit register, r = A among them: both operands are read before the write. -/
def Obligations.AddRegisterTermResultFlagsAndFrame : Prop :=
  ∀ (r : Reg8) (s : State), ∃ t, execTerm (.add (.reg r)) s = .next t ∧
    t.regs.a.toNat = (s.regs.a.toNat + (s.readReg r).toNat) % 256 ∧
    (t.flags.z = true ↔ t.regs.a = 0x00#8) ∧
    t.flags.n = false ∧
    (t.flags.h = true ↔ s.regs.a.toNat % 16 + (s.readReg r).toNat % 16 > 15) ∧
    (t.flags.c = true ↔ s.regs.a.toNat + (s.readReg r).toNat > 255) ∧
    t.pc.toNat = (s.pc.toNat + 1) % 65536 ∧
    t.regs = { s.regs with a := t.regs.a } ∧
    t.halted = s.halted ∧ t.fault = s.fault ∧ (∀ a : Word, t.mem.read a = s.mem.read a)

/-- 42_alu8.md section 3 (the terms other than Inc(B) are the spec's decision D11, the pc D3): Inc(r) for every
8-bit register. -/
def Obligations.IncRegisterTermResultFlagsAndFrame : Prop :=
  ∀ (r : Reg8) (s : State), ∃ t, execTerm (.inc (.reg r)) s = .next t ∧
    (t.readReg r).toNat = ((s.readReg r).toNat + 1) % 256 ∧
    (∀ r', r' ≠ r → t.readReg r' = s.readReg r') ∧
    (t.flags.z = true ↔ (s.readReg r).toNat = 255) ∧
    t.flags.n = false ∧
    (t.flags.h = true ↔ (s.readReg r).toNat % 16 = 15) ∧
    t.flags.c = s.flags.c ∧
    t.pc.toNat = (s.pc.toNat + 1) % 65536 ∧
    t.halted = s.halted ∧ t.fault = s.fault ∧ (∀ a : Word, t.mem.read a = s.mem.read a)

/-- 43_inc16.md (Inc(HL) is the spec's decision D11, the pc D3): Inc(p) for every pair. -/
def Obligations.IncPairTermResultAndFrame : Prop :=
  ∀ (p : Pair) (s : State), ∃ t, execTerm (.inc (.pair p)) s = .next t ∧
    (t.readPair p).toNat = ((s.readPair p).toNat + 1) % 65536 ∧
    (∀ r, r ≠ p.high → r ≠ p.low → t.readReg r = s.readReg r) ∧
    t.flags = s.flags ∧
    t.pc.toNat = (s.pc.toNat + 1) % 65536 ∧
    t.halted = s.halted ∧ t.fault = s.fault ∧ (∀ a : Word, t.mem.read a = s.mem.read a)

/-- 42_alu8.md section 2, 43_inc16.md, 60_exceptions.md section 1 (the targets are the spec's decisions D11,
D12, the record's codes D6, its address D19): a term whose target is not handled raises UnsupportedOperand,
whatever an immediate's value is, and changes nothing but the fault record; a handled term raises nothing. -/
def Obligations.UnsupportedTargetsRaiseAndChangeNothingElse : Prop :=
  (∀ (i : Term) (s : State), i.supported = false → ∃ t, execTerm i s = .next t ∧
    t.status = .faulted ∧ t.fault.kind.code = 2#2 ∧ t.fault.addr = s.pc ∧ t.fault.byte = 0x00#8 ∧
    t.fault.instrKind = i.kind ∧ t.fault.target = i.tag ∧
    t.pc = s.pc ∧ t.halted = s.halted ∧ t.regs = s.regs ∧ t.flags = s.flags ∧
    (∀ a : Word, t.mem.read a = s.mem.read a)) ∧
  (∀ (i : Term) (s t : State), i.supported = true → execTerm i s = .next t → t.fault = s.fault) ∧
  (∀ i : Term, i.supported = false ↔
    i = .add (.pair .bc) ∨ i = .add (.pair .de) ∨ i = .add (.pair .hl) ∨ (∃ v, i = .add (.imm8 v)) ∨
    i = .add .memHL ∨ (∃ v, i = .inc (.imm8 v)) ∨ i = .inc .memHL)

/-- 60_exceptions.md section 1 (marked derived there): no step from memory raises UnsupportedOperand. -/
def Obligations.NoFetchedByteRaisesUnsupportedOperand : Prop :=
  ∀ s t : State, step s = .next t → t.fault.kind = .unsupportedOperand → t = s

/-! ## The ALU and its laws -/

/-- 42_alu8.md R103, R104: ADD8 of the ALU, for every input. -/
def Obligations.Add8SumAndFlags : Prop :=
  ∀ (a b : Byte) (w : Word) (f : Flags), ∃ o, alu { op := .add8, a := a, b := b, w := w, fOld := f } = o ∧
    o.r8.toNat = (a.toNat + b.toNat) % 256 ∧
    (o.f.z = true ↔ o.r8 = 0x00#8) ∧ o.f.n = false ∧
    (o.f.h = true ↔ a.toNat % 16 + b.toNat % 16 > 15) ∧
    (o.f.c = true ↔ a.toNat + b.toNat > 255) ∧
    o.fwe = { z := true, n := true, h := true, c := true }

/-- 42_alu8.md R105: INC8 of the ALU, for every input. -/
def Obligations.Inc8ResultAndFlags : Prop :=
  ∀ (a b : Byte) (w : Word) (f : Flags), ∃ o, alu { op := .inc8, a := a, b := b, w := w, fOld := f } = o ∧
    o.r8.toNat = (a.toNat + 1) % 256 ∧
    (o.f.z = true ↔ o.r8 = 0x00#8) ∧ o.f.n = false ∧
    (o.f.h = true ↔ a.toNat % 16 = 15) ∧ o.f.c = f.c ∧
    o.fwe = { z := true, n := true, h := true, c := false }

/-- 42_alu8.md section 2 (marked derived there): addition is commutative in its result and its flags; how many
of the 65536 operand pairs set Z, C and H. -/
def Obligations.Add8CommutesAndItsFlagCounts : Prop :=
  (∀ a b : Byte, add8 a b = add8 b a ∧ add8Flags a b = add8Flags b a) ∧
  ((List.range 256).map fun x => (List.range 256).countP fun y =>
    (add8Flags (BitVec.ofNat 8 x) (BitVec.ofNat 8 y)).z).sum = 256 ∧
  ((List.range 256).map fun x => (List.range 256).countP fun y =>
    (add8Flags (BitVec.ofNat 8 x) (BitVec.ofNat 8 y)).c).sum = 32640 ∧
  ((List.range 256).map fun x => (List.range 256).countP fun y =>
    (add8Flags (BitVec.ofNat 8 x) (BitVec.ofNat 8 y)).h).sum = 30720

/-- 42_alu8.md section 3 (marked derived there): INC8 is ADD8 with 1 but for the carry flag, which it keeps. -/
def Obligations.Inc8IsAdd8OfOneButForCarry : Prop :=
  (∀ v : Byte, inc8 v = add8 v 0x01#8) ∧
  (∀ (v : Byte) (old : Flags), inc8Flags v old = { add8Flags v 0x01#8 with c := old.c }) ∧
  (∀ (v : Byte) (old : Flags), (inc8Flags v old).z = true ↔ v = 0xFF#8) ∧
  (∀ (v : Byte) (old : Flags), (inc8Flags v old).h = true ↔ ∃ k, k < 16 ∧ v.toNat = 16 * k + 15)

/-- 43_inc16.md (marked derived there; Inc(HL), a term with no byte, is the spec's decision D11, log 13): the low
register is incremented modulo 256, the high register exactly when the old low register was 0xFF. -/
def Obligations.Inc16CarriesFromLowToHigh : Prop :=
  ∀ (p : Pair) (s t : State), execTerm (.inc (.pair p)) s = .next t →
    t.readReg p.low = s.readReg p.low + 0x01#8 ∧
    (s.readReg p.low = 0xFF#8 → t.readReg p.high = s.readReg p.high + 0x01#8) ∧
    (s.readReg p.low ≠ 0xFF#8 → t.readReg p.high = s.readReg p.high) ∧
    (s.readPair p = 0xFFFF#16 → t.readPair p = 0x0000#16)

/-! ## The blocks -/

/-- 40_engine.md section 3 (SEQ for an increment is the spec's decision D3, the codes D14): the program counter
controller. -/
def Obligations.PcControllerSelectsSeqZeroOrHold : Prop :=
  (∀ pc : Word, (nextPc .seq pc).toNat = (pc.toNat + 1) % 65536 ∧ nextPc .zero pc = 0x0000#16 ∧ nextPc .hold pc = pc) ∧
  pcWe .seq = true ∧ pcWe .zero = true ∧ pcWe .hold = false ∧
  nextPc .seq 0xFFFF#16 = 0x0000#16

/-- 40_engine.md section 4 (the ports are the spec's decision D14): each step writes at most one of the two
register ports; a flag whose enable is 0 keeps its value; a step that raises enables no write. (Its `alu_op` NONE is
the model's choice, log 10.) -/
def Obligations.PortsWriteAtMostOnceAndDisabledFlagsKeepTheirValue : Prop :=
  (∀ d : DecOut, ((executeControl d).wr8En && (executeControl d).wr16En) = false) ∧
  (∀ old fwe new : Flags, (fwe.z = false → (flagsWrite old fwe new).z = old.z) ∧
    (fwe.n = false → (flagsWrite old fwe new).n = old.n) ∧ (fwe.h = false → (flagsWrite old fwe new).h = old.h) ∧
    (fwe.c = false → (flagsWrite old fwe new).c = old.c)) ∧
  (∀ d : DecOut, (executeControl d).raises ≠ .none →
    (executeControl d).wr8En = false ∧ (executeControl d).wr16En = false ∧ (executeControl d).haltWe = false ∧
    (executeControl d).pcSel = .hold ∧ (executeControl d).aluOp = .none)

/-- 40_engine.md section 1: the block-level core, whatever the undriven signals carry (log 10), and the step
are one machine; so are they on every term. (That a fault and a terminal status answer a next state is the model's
form, logs 6 and 7; `alu_op` on a step that raises is log 10.) -/
def Obligations.DatapathIsTheStep : Prop :=
  (∀ s : State, step s = .next (datapathStep s)) ∧
  (∀ (i : Term) (s : State), execTerm i s =
    .next (datapathExec { valid := true, kind := i.kind, target := i.tag } (fetchUnit s.mem s.pc) s))

/-! ## Runs -/

/-- 41_control.md (marked derived there): `n` NOPs in a row advance pc by n and change nothing else. -/
def Obligations.RunOfNopsAdvancesPcOnly : Prop :=
  ∀ (n : Nat) (s : State), s.status = .running →
    (∀ j, j < n → s.mem.read (s.pc + BitVec.ofNat 16 j) = 0x00#8) →
    StepsTo n s { s with pc := s.pc + BitVec.ofNat 16 n }

/-- 40_engine.md section 3: there is no branch: while a run is RUNNING its pc is the start plus the steps
taken, modulo 65536. (The pc of an increment is the spec's decision D3, log 2.) -/
def Obligations.RunningPcCountsTheSteps : Prop :=
  ∀ (n : Nat) (s t : State), s.status = .running → StepsTo n s t → t.status = .running →
    t.pc.toNat = (s.pc.toNat + n) % 65536

/-- 40_engine.md section 5: `run()` under enough fuel gives the first terminal state its steps reach, with HALTED or
the fault record as its result, and gives nothing before one is reached. The session's run request has exactly
that state and that reply, and ends the host's leave to write. (The fuel is log 17; no write after the first request
is the spec's decision D15, log 9.) -/
def Obligations.RunReturnsTheFirstTerminalState : Prop :=
  (∀ (k : Nat) (s t : State), runFuel k s = some t ↔
    ∃ n, n ≤ k ∧ StepsTo n s t ∧ t.status ≠ .running ∧
      ∀ m, m < n → ∀ u, StepsTo m s u → u.status = .running) ∧
  (∀ (k : Nat) (s t : State) (r : HostReply), runRequest k s = some (t, r) →
    runFuel k s = some t ∧ (t.status = .halted → r = .halted) ∧ (t.status = .faulted → r = .faulted t.fault)) ∧
  (∀ (k : Nat) (s : State), runRequest k s = none ↔ runFuel k s = none) ∧
  (∀ (x y : Session) (k : Nat) (r : HostReply), x.act (.run k) = some (y, r) ↔
    runRequest k x.core = some (y.core, r) ∧ y.started = true) ∧
  (∀ (x y : Session) (k : Nat) (r : HostReply) (w : HostWrite), x.act (.run k) = some (y, r) → y.act (.write w) = none)

/-- 40_engine.md section 6: the end of a run of a RUNNING core. At HALTED the state is that of the last RUNNING state
with `halted` and pc 0x0000 written; at FAULTED it is the last RUNNING state with the fault record written. (The
fuel is log 17; the state of a fault is log 6.) -/
def Obligations.EndOfRunIsHaltOrFaultInPlace : Prop :=
  ∀ (k : Nat) (s t : State), s.status = .running → runFuel k s = some t →
    ∃ (n : Nat) (u : State), n < k ∧ StepsTo n s u ∧ u.status = .running ∧ StepsTo (n + 1) s t ∧
      ((t.status = .halted ∧ u.mem.read u.pc = 0x76#8 ∧ t = { u with halted := true, pc := 0x0000#16 }) ∨
       (t.status = .faulted ∧ decodeByte (u.mem.read u.pc) = none ∧
        t = { u with fault := .unknownOpcode u.pc (u.mem.read u.pc) }))

/-- 40_engine.md sections 3 and 5, 70_reset_and_hazards.md sections 2 and 3: where a run ends is read off
memory: at the first byte from pc on, in address order with wrap, that is HALT or does not decode. The run ends
after exactly that many steps and one more, and with the outcome that byte gives. (The pc of an increment is the
spec's decision D3, log 2; the run under fuel is log 17; the state of a fault is log 6.) -/
def Obligations.RunEndsAtTheFirstStoppingByte : Prop :=
  ∀ (s : State) (k : Nat), s.status = .running → k < 65536 →
    (∀ j, j < k → stopsRun (s.mem.read (s.pc + BitVec.ofNat 16 j)) = false) →
    stopsRun (s.mem.read (s.pc + BitVec.ofNat 16 k)) = true →
    (∀ n, (runFuel n s).isSome = true ↔ k < n) ∧
    ∃ t, runFuel (k + 1) s = some t ∧ t.mem = s.mem ∧
      (s.mem.read (s.pc + BitVec.ofNat 16 k) = 0x76#8 →
        t.status = .halted ∧ t.pc = 0x0000#16 ∧ t.fault = s.fault) ∧
      (s.mem.read (s.pc + BitVec.ofNat 16 k) ≠ 0x76#8 →
        t.status = .faulted ∧ t.pc = s.pc + BitVec.ofNat 16 k ∧ t.halted = false ∧
        t.fault = .unknownOpcode (s.pc + BitVec.ofNat 16 k) (s.mem.read (s.pc + BitVec.ofNat 16 k)))

/-- 40_engine.md section 5: a run never ends exactly when no byte of memory is HALT or undecodable. (The run under
fuel is log 17; the pc of an increment is the spec's decision D3, log 2.) -/
def Obligations.RunNeverEndsWithoutAStoppingByte : Prop :=
  ∀ s : State, s.status = .running →
    ((∀ n, runFuel n s = none) ↔ ∀ a : Word, stopsRun (s.mem.read a) = false)

/-- 70_reset_and_hazards.md section 3: a RUNNING core over a memory in which every byte decodes never faults. -/
def Obligations.MemoryOfDecodableBytesRunsSafely : Prop :=
  ∀ s : State, s.status = .running → (∀ a : Word, (decodeByte (s.mem.read a)).isSome = true) → SafeRun s

/-- 42_alu8.md section 4 (marked derived there): over a run, the carry flag changes only where an ADD A,C is
fetched, no flag changes where neither ADD A,C nor INC B is, and N never becomes true. -/
def Obligations.FlagsChangeOnlyWhereTheirWritersAreFetched : Prop :=
  (∀ (n : Nat) (s t : State), StepsTo n s t →
    (∀ m, m < n → ∀ u, StepsTo m s u → u.status = .running → u.mem.read u.pc ≠ 0x81#8) → t.flags.c = s.flags.c) ∧
  (∀ (n : Nat) (s t : State), StepsTo n s t →
    (∀ m, m < n → ∀ u, StepsTo m s u → u.status = .running →
      u.mem.read u.pc ≠ 0x81#8 ∧ u.mem.read u.pc ≠ 0x04#8) → t.flags = s.flags) ∧
  (∀ (n : Nat) (s t : State), StepsTo n s t → t.flags.n = true → s.flags.n = true)
end

