-- ==== Sys2Proof/Laws/State.lean ====
section
/-! SUPPORT. One lemma per field per update of State, and per register of the register file, so that no later
proof unfolds a record update. -/

namespace Sys2Proof.Machine

@[simp] theorem State.writeReg_regs (s : State) (r : Reg8) (v : Byte) :
    (s.writeReg r v).regs = s.regs.set r v := rfl
@[simp] theorem State.writeReg_flags (s : State) (r : Reg8) (v : Byte) :
    (s.writeReg r v).flags = s.flags := rfl
@[simp] theorem State.writeReg_pc (s : State) (r : Reg8) (v : Byte) :
    (s.writeReg r v).pc = s.pc := rfl
@[simp] theorem State.writeReg_halted (s : State) (r : Reg8) (v : Byte) :
    (s.writeReg r v).halted = s.halted := rfl
@[simp] theorem State.writeReg_fault (s : State) (r : Reg8) (v : Byte) :
    (s.writeReg r v).fault = s.fault := rfl
@[simp] theorem State.writeReg_mem (s : State) (r : Reg8) (v : Byte) :
    (s.writeReg r v).mem = s.mem := rfl

@[simp] theorem State.writeFlags_regs (s : State) (f : Flags) :
    (s.writeFlags f).regs = s.regs := rfl
@[simp] theorem State.writeFlags_flags (s : State) (f : Flags) :
    (s.writeFlags f).flags = f := rfl
@[simp] theorem State.writeFlags_pc (s : State) (f : Flags) :
    (s.writeFlags f).pc = s.pc := rfl
@[simp] theorem State.writeFlags_halted (s : State) (f : Flags) :
    (s.writeFlags f).halted = s.halted := rfl
@[simp] theorem State.writeFlags_fault (s : State) (f : Flags) :
    (s.writeFlags f).fault = s.fault := rfl
@[simp] theorem State.writeFlags_mem (s : State) (f : Flags) :
    (s.writeFlags f).mem = s.mem := rfl

@[simp] theorem State.setHalted_regs (s : State) :
    s.setHalted.regs = s.regs := rfl
@[simp] theorem State.setHalted_flags (s : State) :
    s.setHalted.flags = s.flags := rfl
@[simp] theorem State.setHalted_pc (s : State) :
    s.setHalted.pc = s.pc := rfl
@[simp] theorem State.setHalted_halted (s : State) :
    s.setHalted.halted = true := rfl
@[simp] theorem State.setHalted_fault (s : State) :
    s.setHalted.fault = s.fault := rfl
@[simp] theorem State.setHalted_mem (s : State) :
    s.setHalted.mem = s.mem := rfl

@[simp] theorem State.writeMem_regs (s : State) (a : Word) (v : Byte) :
    (s.writeMem a v).regs = s.regs := rfl
@[simp] theorem State.writeMem_flags (s : State) (a : Word) (v : Byte) :
    (s.writeMem a v).flags = s.flags := rfl
@[simp] theorem State.writeMem_pc (s : State) (a : Word) (v : Byte) :
    (s.writeMem a v).pc = s.pc := rfl
@[simp] theorem State.writeMem_halted (s : State) (a : Word) (v : Byte) :
    (s.writeMem a v).halted = s.halted := rfl
@[simp] theorem State.writeMem_fault (s : State) (a : Word) (v : Byte) :
    (s.writeMem a v).fault = s.fault := rfl
@[simp] theorem State.writeMem_mem (s : State) (a : Word) (v : Byte) :
    (s.writeMem a v).mem = s.mem.write a v := rfl

@[simp] theorem State.commitPc_regs (s : State) (x : PcSel) :
    (s.commitPc x).regs = s.regs := rfl
@[simp] theorem State.commitPc_flags (s : State) (x : PcSel) :
    (s.commitPc x).flags = s.flags := rfl
@[simp] theorem State.commitPc_pc (s : State) (x : PcSel) :
    (s.commitPc x).pc = if pcWe x then nextPc x s.pc else s.pc := rfl
@[simp] theorem State.commitPc_halted (s : State) (x : PcSel) :
    (s.commitPc x).halted = s.halted := rfl
@[simp] theorem State.commitPc_fault (s : State) (x : PcSel) :
    (s.commitPc x).fault = s.fault := rfl
@[simp] theorem State.commitPc_mem (s : State) (x : PcSel) :
    (s.commitPc x).mem = s.mem := rfl

@[simp] theorem State.takeFault_regs (s : State) (r : FaultRecord) :
    (s.takeFault r).regs = s.regs := rfl
@[simp] theorem State.takeFault_flags (s : State) (r : FaultRecord) :
    (s.takeFault r).flags = s.flags := rfl
@[simp] theorem State.takeFault_pc (s : State) (r : FaultRecord) :
    (s.takeFault r).pc = s.pc := rfl
@[simp] theorem State.takeFault_halted (s : State) (r : FaultRecord) :
    (s.takeFault r).halted = s.halted := rfl
@[simp] theorem State.takeFault_fault (s : State) (r : FaultRecord) :
    (s.takeFault r).fault = r := rfl
@[simp] theorem State.takeFault_mem (s : State) (r : FaultRecord) :
    (s.takeFault r).mem = s.mem := rfl

@[simp] theorem State.writePair_regs (s : State) (p : Pair) (v : Word) :
    (s.writePair p v).regs = (s.regs.set p.high (highByte v)).set p.low (lowByte v) := rfl
@[simp] theorem State.writePair_flags (s : State) (p : Pair) (v : Word) :
    (s.writePair p v).flags = s.flags := rfl
@[simp] theorem State.writePair_pc (s : State) (p : Pair) (v : Word) :
    (s.writePair p v).pc = s.pc := rfl
@[simp] theorem State.writePair_halted (s : State) (p : Pair) (v : Word) :
    (s.writePair p v).halted = s.halted := rfl
@[simp] theorem State.writePair_fault (s : State) (p : Pair) (v : Word) :
    (s.writePair p v).fault = s.fault := rfl
@[simp] theorem State.writePair_mem (s : State) (p : Pair) (v : Word) :
    (s.writePair p v).mem = s.mem := rfl

@[simp] theorem State.withFetchWord_regs (s : State) (nbits w : Nat) :
    (s.withFetchWord nbits w).regs = s.regs := rfl
@[simp] theorem State.withFetchWord_flags (s : State) (nbits w : Nat) :
    (s.withFetchWord nbits w).flags = s.flags := rfl
@[simp] theorem State.withFetchWord_pc (s : State) (nbits w : Nat) :
    (s.withFetchWord nbits w).pc = s.pc := rfl
@[simp] theorem State.withFetchWord_halted (s : State) (nbits w : Nat) :
    (s.withFetchWord nbits w).halted = s.halted := rfl
@[simp] theorem State.withFetchWord_fault (s : State) (nbits w : Nat) :
    (s.withFetchWord nbits w).fault = s.fault := rfl
@[simp] theorem State.withFetchWord_mem (s : State) (nbits w : Nat) :
    (s.withFetchWord nbits w).mem = s.mem.write s.pc (wordByte nbits w) := rfl

@[simp] theorem Regs.get_set_same (x : Regs) (r : Reg8) (v : Byte) : (x.set r v).get r = v := by
  cases r <;> rfl

theorem Regs.get_set_other (x : Regs) (r r' : Reg8) (v : Byte) (h : r' ≠ r) :
    (x.set r v).get r' = x.get r' := by
  cases r <;> cases r' <;> first | rfl | exact absurd rfl h

/-- A register read after a register write. -/
theorem Regs.get_set (x : Regs) (r r' : Reg8) (v : Byte) :
    (x.set r v).get r' = if r' = r then v else x.get r' := by
  by_cases h : r' = r
  · simp [h]
  · simp [h, Regs.get_set_other x r r' v h]

/-- Two register files with the same seven values are equal. -/
theorem Regs.ext_get (x y : Regs) (h : ∀ r, x.get r = y.get r) : x = y := by
  obtain ⟨a, b, c, d, e, f, g⟩ := x
  obtain ⟨a', b', c', d', e', f', g'⟩ := y
  have ha := h .a; have hb := h .b; have hc := h .c; have hd := h .d
  have he := h .e; have hf := h .h; have hg := h .l
  simp only [Regs.get] at ha hb hc hd he hf hg
  simp [ha, hb, hc, hd, he, hf, hg]

/-- Two states with equal fields are equal. -/
theorem State.eq_of_fields (s t : State) (h1 : s.regs = t.regs) (h2 : s.flags = t.flags) (h3 : s.pc = t.pc)
    (h4 : s.halted = t.halted) (h5 : s.fault = t.fault) (h6 : s.mem = t.mem) : s = t := by
  cases s; cases t; simp_all

end Sys2Proof.Machine
end

