-- ==== Sys2Proof/Laws/Config.lean ====
section
/-! SUPPORT. The model's types and tables agree with the parameters of 00_scope.md R9. -/

namespace Sys2Proof.Machine

theorem byte_width : Byte = BitVec Config.regWidth := rfl
theorem opcode_width : Byte = BitVec Config.opcodeWidth := rfl
theorem pc_width : Word = BitVec Config.pcWidth := rfl
theorem addr_width : Word = BitVec Config.addrWidth := rfl
theorem mem_size : Config.memSize = 2 ^ Config.addrWidth := rfl

/-- The seven registers are all there are. -/
theorem every_register_listed (r : Reg8) : r ∈ [Reg8.a, .b, .c, .d, .e, .h, .l] := by cases r <;> decide
theorem num_regs : [Reg8.a, .b, .c, .d, .e, .h, .l].length = Config.numRegs := rfl

/-- The six instructions are all there are. -/
theorem every_instruction_listed (i : Instr) : i ∈ [Instr.nop, .incBC, .incB, .incDE, .halt, .addAC] := by
  cases i <;> decide
theorem num_opcodes : [Instr.nop, .incBC, .incB, .incDE, .halt, .addAC].length = Config.numOpcodes := rfl

/-- The flags register has the four flags of its nibble. -/
theorem num_flags : (Flags.toNibble : Flags → BitVec Config.numFlags) = Flags.toNibble := rfl

end Sys2Proof.Machine
end

