-- ==== Sys2Proof/Laws/Memory.lean ====
section
/-! SUPPORT. The laws of memory: a write is read back and leaves every other address alone, and every
operation keeps the canonical form. -/

namespace Sys2Proof.Machine

/-- One cell and a canonical rest. -/
theorem Memory.wfFrom_cons (lo k : Nat) (v : Byte) (m : Memory) :
    Memory.wfFrom lo ((k, v) :: m) = true ↔
      lo ≤ k ∧ k < Config.memSize ∧ v ≠ Config.resetByte ∧ Memory.wfFrom (k + 1) m = true := by
  simp [Memory.wfFrom, and_assoc]

theorem Memory.wfFrom_mono {lo lo' : Nat} {m : Memory} (h : Memory.wfFrom lo m = true) (hl : lo' ≤ lo) :
    Memory.wfFrom lo' m = true := by
  cases m with
  | nil => rfl
  | cons c m =>
    obtain ⟨k, v⟩ := c
    rw [Memory.wfFrom_cons] at h ⊢
    exact ⟨hl.trans h.1, h.2⟩

/-- Below its first address a canonical memory holds its reset bytes. -/
theorem Memory.readNat_below {lo a : Nat} {m : Memory} (h : Memory.wfFrom lo m = true) (ha : a < lo) :
    m.readNat a = Config.resetByte := by
  induction m generalizing lo with
  | nil => rfl
  | cons c m ih =>
    obtain ⟨k, v⟩ := c
    rw [Memory.wfFrom_cons] at h
    have hk : k ≠ a := by omega
    simp only [Memory.readNat, hk, if_false]
    exact ih h.2.2.2 (by omega)

theorem Memory.readNat_writeNat_other (m : Memory) (a b : Nat) (v : Byte) (h : b ≠ a) :
    (m.writeNat a v).readNat b = m.readNat b := by
  have hab : a ≠ b := fun e => h e.symm
  induction m with
  | nil =>
    unfold Memory.writeNat
    split <;> simp [Memory.readNat, hab]
  | cons c m ih =>
    obtain ⟨k, w⟩ := c
    unfold Memory.writeNat
    split
    · simp [Memory.readNat, ih]
    · split
      · rename_i hk
        subst hk
        split <;> simp [Memory.readNat, hab]
      · split <;> simp [Memory.readNat, hab]

theorem Memory.readNat_writeNat_same {lo : Nat} {m : Memory} (h : Memory.wfFrom lo m = true) (a : Nat) (v : Byte) :
    (m.writeNat a v).readNat a = v := by
  induction m generalizing lo with
  | nil =>
    unfold Memory.writeNat
    split <;> simp_all [Memory.readNat]
  | cons c m ih =>
    obtain ⟨k, w⟩ := c
    rw [Memory.wfFrom_cons] at h
    obtain ⟨_, _, _, hm⟩ := h
    unfold Memory.writeNat
    split
    · rename_i hka
      have hk : k ≠ a := by omega
      simp only [Memory.readNat, hk, if_false]
      exact ih hm
    · split
      · rename_i hka
        split
        · rename_i hv
          rw [hv]
          exact Memory.readNat_below hm (by omega)
        · simp [Memory.readNat]
      · split
        · rename_i hka hne hv
          have hk : k ≠ a := hne
          simp only [Memory.readNat, hk, if_false]
          rw [hv]
          exact Memory.readNat_below hm (by omega)
        · simp [Memory.readNat]

theorem Memory.writeNat_wfFrom {lo : Nat} {m : Memory} (h : Memory.wfFrom lo m = true) (a : Nat) (v : Byte)
    (hlo : lo ≤ a) (ha : a < Config.memSize) : Memory.wfFrom lo (m.writeNat a v) = true := by
  induction m generalizing lo with
  | nil =>
    unfold Memory.writeNat
    split
    · rfl
    · rename_i hv
      rw [Memory.wfFrom_cons]
      exact ⟨hlo, ha, hv, rfl⟩
  | cons c m ih =>
    obtain ⟨k, w⟩ := c
    rw [Memory.wfFrom_cons] at h
    obtain ⟨hk, hks, hw, hm⟩ := h
    unfold Memory.writeNat
    split
    · rw [Memory.wfFrom_cons]
      exact ⟨hk, hks, hw, ih hm (by omega)⟩
    · split
      · rename_i hka
        subst hka
        split
        · exact Memory.wfFrom_mono hm (by omega)
        · rename_i hv
          rw [Memory.wfFrom_cons]
          exact ⟨hk, hks, hv, hm⟩
      · split
        · rw [Memory.wfFrom_cons]
          exact ⟨hk, hks, hw, hm⟩
        · rename_i hka hne hv
          rw [Memory.wfFrom_cons, Memory.wfFrom_cons]
          exact ⟨hlo, ha, hv, by omega, hks, hw, hm⟩

/-- Every memory operation keeps the canonical form. -/
theorem Memory.write_wf {m : Memory} (h : m.wf = true) (a : Word) (v : Byte) : (m.write a v).wf = true :=
  Memory.writeNat_wfFrom h a.toNat v (Nat.zero_le _) a.isLt

/-- A byte read after it was written (20_memory.md R47). -/
theorem Memory.read_write_same {m : Memory} (h : m.wf = true) (a : Word) (v : Byte) : (m.write a v).read a = v :=
  Memory.readNat_writeNat_same h a.toNat v

/-- A write leaves every other address alone. -/
theorem Memory.read_write_other (m : Memory) (a b : Word) (v : Byte) (h : b ≠ a) : (m.write a v).read b = m.read b :=
  Memory.readNat_writeNat_other m a.toNat b.toNat v fun e => h (BitVec.eq_of_toNat_eq e)

/-- A byte read after any write, in one equation. -/
theorem Memory.read_write {m : Memory} (h : m.wf = true) (a b : Word) (v : Byte) :
    (m.write a v).read b = if b = a then v else m.read b := by
  by_cases hb : b = a
  · subst hb; simp [Memory.read_write_same h]
  · simp [hb, Memory.read_write_other m a b v hb]

/-- Memory with nothing listed reads as it does at reset. -/
@[simp] theorem Memory.read_nil (a : Word) : Memory.read [] a = Config.resetByte := rfl

end Sys2Proof.Machine
end

