-- ==== Sys2Proof/Laws/Ops.lean ====
section
/-! SUPPORT. What the shared operations do, said once each: bytes and pairs, the program counter, the
status, the exact sum of the ALU. -/

namespace Sys2Proof.Machine

/-! ## Bytes of a pair -/

@[simp] theorem highByte_joinBytes (x y : Byte) : highByte (joinBytes x y) = x := by
  apply BitVec.eq_of_getLsbD_eq
  intro i hi
  have h1 : 8 + i < 16 := by omega
  have h2 : i < 16 := by omega
  simp [highByte, joinBytes, hi, h1, h2]

@[simp] theorem lowByte_joinBytes (x y : Byte) : lowByte (joinBytes x y) = y := by
  apply BitVec.eq_of_getLsbD_eq
  intro i hi
  simp [lowByte, joinBytes, hi]

@[simp] theorem joinBytes_parts (v : Word) : joinBytes (highByte v) (lowByte v) = v := by
  apply BitVec.eq_of_getLsbD_eq
  intro i hi
  by_cases h : i < 8
  · simp [highByte, lowByte, joinBytes, hi, h]
  · have h8 : i - 8 < 8 := by omega
    have he : 8 + (i - 8) = i := by omega
    simp [highByte, lowByte, joinBytes, hi, h, h8, he]

/-- A pair as a number: high byte first (10_state.md R21). -/
theorem joinBytes_toNat (x y : Byte) : (joinBytes x y).toNat = x.toNat * 256 + y.toNat := by
  have hx := x.isLt
  have hy := y.isLt
  simp only [joinBytes, BitVec.toNat_or, BitVec.toNat_shiftLeft, BitVec.truncate_eq_setWidth, BitVec.toNat_setWidth]
  rw [Nat.mod_eq_of_lt (by omega : x.toNat < 2 ^ 16), Nat.mod_eq_of_lt (by omega : y.toNat < 2 ^ 16),
    Nat.shiftLeft_eq, Nat.mod_eq_of_lt (by omega)]
  rw [show x.toNat * 2 ^ 8 = 2 ^ 8 * x.toNat from Nat.mul_comm _ _, ← Nat.two_pow_add_eq_or_of_lt hy]
  omega

theorem Pair.high_ne_low (p : Pair) : p.high ≠ p.low := by cases p <;> decide

/-! ## The program counter -/

@[simp] theorem State.commitPc_seq (s : State) : s.commitPc .seq = { s with pc := s.pc + 0x0001#16 } := rfl
@[simp] theorem State.commitPc_zero (s : State) : s.commitPc .zero = { s with pc := 0x0000#16 } := rfl
@[simp] theorem State.commitPc_hold (s : State) : s.commitPc .hold = s := rfl

/-! ## The status -/

/-- RUNNING is: not halted and no fault (10_state.md R34). -/
theorem State.running_iff (s : State) : s.status = .running ↔ s.halted = false ∧ s.fault.kind = .none := by
  unfold State.status
  split <;> simp_all

/-- HALTED is: halted and no fault (10_state.md R34). -/
theorem State.halted_iff (s : State) : s.status = .halted ↔ s.halted = true ∧ s.fault.kind = .none := by
  unfold State.status
  split <;> simp_all

/-- FAULTED is: a fault (10_state.md R34). -/
theorem State.faulted_iff (s : State) : s.status = .faulted ↔ s.fault.kind ≠ .none := by
  unfold State.status
  split
  · simp_all
  · split <;> simp_all

/-- The status depends on the halt flag and the fault record alone. -/
theorem State.status_congr (s t : State) (h1 : s.halted = t.halted) (h2 : s.fault = t.fault) :
    s.status = t.status := by
  simp [State.status, h1, h2]

/-! ## The ALU's exact sum -/

/-- The sum of two bytes is exact (42_alu8.md R103). -/
theorem add8Sum_toNat (a b : Byte) : (add8Sum a b).toNat = a.toNat + b.toNat := by
  have ha := a.isLt
  have hb := b.isLt
  simp only [add8Sum, BitVec.toNat_add, BitVec.truncate_eq_setWidth, BitVec.toNat_setWidth]
  omega

/-- The low nibble of a byte as a number. -/
theorem lowNibble_toNat (a : Byte) : (a &&& 0x0F#8).toNat = a.toNat % 16 := by
  rw [BitVec.toNat_and]
  exact Nat.and_two_pow_sub_one_eq_mod a.toNat 4

end Sys2Proof.Machine
end

