-- ==== Sys2Proof/Laws/Step.lean ====
section
/-! SUPPORT. Everything an instruction and a step can do, said once: the inversion lemmas later proofs cite
instead of unfolding `exec`, `execTerm` or `step`. -/

namespace Sys2Proof.Machine

/-- What each instruction does when it answers a next state. -/
theorem exec_cases {i : Instr} {s t : State} (h : exec i s = .next t) :
    (i = .nop ∧ t = s.commitPc .seq) ∨
    (i = .incBC ∧ t = (s.writePair .bc (inc16 (s.readPair .bc))).commitPc .seq) ∨
    (i = .incB ∧ t = ((s.writeReg .b (inc8 (s.readReg .b))).writeFlags (inc8Flags (s.readReg .b) s.flags)).commitPc .seq) ∨
    (i = .incDE ∧ t = (s.writePair .de (inc16 (s.readPair .de))).commitPc .seq) ∨
    (i = .halt ∧ t = s.setHalted.commitPc .zero) ∨
    (i = .addAC ∧ t = ((s.writeReg .a (add8 (s.readReg .a) (s.readReg .c))).writeFlags
      (add8Flags (s.readReg .a) (s.readReg .c))).commitPc .seq) := by
  cases i with
  | nop => exact .inl ⟨rfl, (Host.Outcome.next.inj h).symm⟩
  | incBC => exact .inr (.inl ⟨rfl, (Host.Outcome.next.inj h).symm⟩)
  | incB => exact .inr (.inr (.inl ⟨rfl, (Host.Outcome.next.inj h).symm⟩))
  | incDE => exact .inr (.inr (.inr (.inl ⟨rfl, (Host.Outcome.next.inj h).symm⟩)))
  | halt => exact .inr (.inr (.inr (.inr (.inl ⟨rfl, (Host.Outcome.next.inj h).symm⟩))))
  | addAC => exact .inr (.inr (.inr (.inr (.inr ⟨rfl, (Host.Outcome.next.inj h).symm⟩))))

/-- What a term does when it answers a next state: it raises, halts, or advances. -/
theorem execTerm_cases {t : Term} {s s' : State} (h : execTerm t s = .next s') :
    (t.supported = false ∧ s' = s.takeFault (.unsupportedOperand t.kind t.tag s.pc)) ∨
    (t = .halt ∧ s' = s.setHalted.commitPc .zero) ∨
    (t = .nop ∧ s' = s.commitPc .seq) ∨
    (∃ r, t = .add (.reg r) ∧ s' = ((s.writeReg .a (add8 (s.readReg .a) (s.readReg r))).writeFlags
      (add8Flags (s.readReg .a) (s.readReg r))).commitPc .seq) ∨
    (∃ r, t = .inc (.reg r) ∧ s' = ((s.writeReg r (inc8 (s.readReg r))).writeFlags
      (inc8Flags (s.readReg r) s.flags)).commitPc .seq) ∨
    (∃ p, t = .inc (.pair p) ∧ s' = (s.writePair p (inc16 (s.readPair p))).commitPc .seq) := by
  cases t with
  | nop => exact .inr (.inr (.inl ⟨rfl, (Host.Outcome.next.inj h).symm⟩))
  | halt => exact .inr (.inl ⟨rfl, (Host.Outcome.next.inj h).symm⟩)
  | add t =>
    cases t with
    | reg r => exact .inr (.inr (.inr (.inl ⟨r, rfl, (Host.Outcome.next.inj h).symm⟩)))
    | pair p => exact .inl ⟨rfl, (Host.Outcome.next.inj h).symm⟩
    | imm8 v => exact .inl ⟨rfl, (Host.Outcome.next.inj h).symm⟩
    | memHL => exact .inl ⟨rfl, (Host.Outcome.next.inj h).symm⟩
  | inc t =>
    cases t with
    | reg r => exact .inr (.inr (.inr (.inr (.inl ⟨r, rfl, (Host.Outcome.next.inj h).symm⟩))))
    | pair p => exact .inr (.inr (.inr (.inr (.inr ⟨p, rfl, (Host.Outcome.next.inj h).symm⟩))))
    | imm8 v => exact .inl ⟨rfl, (Host.Outcome.next.inj h).symm⟩
    | memHL => exact .inl ⟨rfl, (Host.Outcome.next.inj h).symm⟩

/-- Everything a step can do: nothing in a terminal status, a fault on a byte that does not decode, or the
decoded instruction. -/
theorem step_cases {s t : State} (h : step s = .next t) :
    (s.status ≠ .running ∧ t = s) ∨
    (s.status = .running ∧ decodeByte s.fetch = none ∧ t = s.takeFault (.unknownOpcode s.pc s.fetch)) ∨
    (s.status = .running ∧ ∃ i, decodeByte s.fetch = some i ∧ exec i s = .next t) := by
  unfold step at h
  split at h
  · rename_i hr
    split at h
    · rename_i i hi
      exact .inr (.inr ⟨hr, i, hi, h⟩)
    · rename_i hn
      exact .inr (.inl ⟨hr, hn, (Host.Outcome.next.inj h).symm⟩)
  · rename_i hh
    exact .inl ⟨by simp [hh], (Host.Outcome.next.inj h).symm⟩
  · rename_i hf
    exact .inl ⟨by simp [hf], (Host.Outcome.next.inj h).symm⟩

/-- A run of one more step, of any machine. -/
theorem coreRun_succ (M : Host.Core) (n : Nat) (s t : M.State) :
    Host.Core.run M (n + 1) s = .next t ↔ ∃ u, M.step s = .next u ∧ Host.Core.run M n u = .next t := by
  have hrun : Host.Core.run M (n + 1) s =
      match M.step s with
      | .next u => Host.Core.run M n u
      | .fault r => .fault r
      | .refused r => .refused r := rfl
  rw [hrun]
  cases M.step s with
  | next u =>
    constructor
    · exact fun h => ⟨u, rfl, h⟩
    · rintro ⟨v, hv, h⟩
      rw [Host.Outcome.next.inj hv]
      exact h
  | fault r =>
    constructor
    · intro h
      cases h
    · rintro ⟨v, hv, _⟩
      cases hv
  | refused r =>
    constructor
    · intro h
      cases h
    · rintro ⟨v, hv, _⟩
      cases hv

/-- A run of one more step, its first step named. -/
theorem stepsTo_succ {n : Nat} {s t : State} :
    StepsTo (n + 1) s t ↔ ∃ u, step s = .next u ∧ StepsTo n u t :=
  coreRun_succ Sys2Proof.core n s t

@[simp] theorem stepsTo_zero {s t : State} : StepsTo 0 s t ↔ s = t := by
  show ((Host.Outcome.next s : Host.Outcome State Fault Refusal) = .next t) ↔ s = t
  constructor
  · intro h
    exact Host.Outcome.next.inj h
  · intro h
    rw [h]

/-- A property of one state that every step keeps is kept by a run of any length. -/
theorem stepsTo_keeps {P : State → Prop} (hstep : ∀ s t, P s → step s = .next t → P t) :
    ∀ (n : Nat) (s t : State), P s → StepsTo n s t → P t := by
  intro n
  induction n with
  | zero =>
    intro s t hs h
    rw [stepsTo_zero] at h
    rwa [← h]
  | succ n ih =>
    intro s t hs h
    obtain ⟨u, hu, ht⟩ := stepsTo_succ.mp h
    exact ih u t (hstep s u hs hu) ht

end Sys2Proof.Machine
end

