-- ==== Sys2Proof/Laws/PerInstr.lean ====
section
/-! SUPPORT. Statements made of each instruction as syntax, one lemma per constructor: its byte, numbered as
spec/opcode_table.json numbers it, decodes to it; its term encodes to that byte and is supported. -/

namespace Sys2Proof.Laws.Codec

/-- An instruction is well formed, its table word decodes to it, and its term has that byte and is one the
execution handles (30_encoding.md R61, R71). -/
def Statement (i : Instr) : Prop :=
  i.wf = true ∧ decodeTableWord 8 (encode i).toNat = some i ∧ encodeTerm i.term = some (encode i) ∧
    i.term.supported = true ∧ i.term.encodable = true

theorem nop : Statement .nop := ⟨rfl, rfl, rfl, rfl, rfl⟩
theorem incBC : Statement .incBC := ⟨rfl, rfl, rfl, rfl, rfl⟩
theorem incB : Statement .incB := ⟨rfl, rfl, rfl, rfl, rfl⟩
theorem incDE : Statement .incDE := ⟨rfl, rfl, rfl, rfl, rfl⟩
theorem halt : Statement .halt := ⟨rfl, rfl, rfl, rfl, rfl⟩
theorem addAC : Statement .addAC := ⟨rfl, rfl, rfl, rfl, rfl⟩

end Sys2Proof.Laws.Codec
end

