-- ==== Sys2Proof/Tests/Slice0.lean ====
section
/-! SUPPORT. Tests. Expected values come from spec/95_test_vectors.md and the rules' worked examples, named
at each test; then, for each obligation with hypotheses, a state and operands that meet them. -/

namespace Sys2Proof.Tests

open Sys2Proof.Machine

/-! ## Helpers -/

/-- The reset state with the first registers, the flags byte and pc given. -/
def st (a b c d e : Byte) (f : Byte) (pc : Word) : State :=
  { State.reset with
    regs := { State.reset.regs with a := a, b := b, c := c, d := d, e := e }
    flags := Flags.fromByte f
    pc := pc }

/-- The reset state with one byte at an address and pc there. -/
def at1 (a : Word) (v : Byte) : State := { State.reset with mem := State.reset.mem.write a v, pc := a }

/-- The state of an outcome, or reset. -/
def out (o : Host.Outcome State Fault Refusal) : State :=
  match o with
  | .next t => t
  | .fault _ => State.reset
  | .refused _ => State.reset

/-! ## Well-formedness refuses ill-formed terms (42_alu8.md R107, 43_inc16.md R118, 30_encoding.md R71) -/

theorem test_wf_refuses_add_of_pair : (Term.add (.pair .bc)).supported = false := by decide
theorem test_wf_refuses_add_of_immediate : (Term.add (.imm8 0x05#8)).supported = false := by decide
theorem test_wf_refuses_add_of_memory : (Term.add .memHL).supported = false := by decide
theorem test_wf_refuses_inc_of_immediate : (Term.inc (.imm8 0x00#8)).supported = false := by decide
theorem test_wf_refuses_inc_of_memory : (Term.inc .memHL).supported = false := by decide
theorem test_wf_accepts_inc_hl : (Term.inc (.pair .hl)).supported = true := by decide
theorem test_encodable_refuses_inc_hl : (Term.inc (.pair .hl)).encodable = false := by decide
theorem test_encodable_refuses_add_b : (Term.add (.reg .b)).encodable = false := by decide
theorem test_wf_memory_refuses_a_listed_zero : Memory.wf [(3, 0x00#8)] = false := by decide
theorem test_wf_memory_refuses_falling_addresses : Memory.wf [(3, 0x01#8), (2, 0x01#8)] = false := by decide
theorem test_wf_memory_refuses_an_address_beyond : Memory.wf [(65536, 0x01#8)] = false := by decide

/-! ## Decoding, each word bit by bit as 30_encoding.md R61 writes it -/

theorem test_decode_nop : decodeTableWord 8 0b00000000 = some .nop := by decide
theorem test_decode_inc_bc : decodeTableWord 8 0b00000011 = some .incBC := by decide
theorem test_decode_inc_b : decodeTableWord 8 0b00000100 = some .incB := by decide
theorem test_decode_inc_de : decodeTableWord 8 0b00010011 = some .incDE := by decide
theorem test_decode_halt : decodeTableWord 8 0b01110110 = some .halt := by decide
theorem test_decode_add_a_c : decodeTableWord 8 0b10000001 = some .addAC := by decide

/-- V-DEC: the neighbours, the bytes other processors use as prefixes, and 0xFF. -/
theorem test_decode_rejects :
    [0x01#8, 0x02#8, 0x05#8, 0x12#8, 0x14#8, 0x23#8, 0x75#8, 0x77#8, 0x80#8, 0x82#8, 0xCB#8, 0xDD#8, 0xED#8,
      0xFD#8, 0xFF#8].all (fun b => (decodeByte b).isNone) = true := by decide

theorem test_decode_rejects_by_name : decode [0xFF#8, 0x00#8] = .error (.unknownOpcode 0xFF#8) := by decide

/-- V-DEC: encode of terms with and without a byte. -/
theorem test_encode_terms :
    encodeTerm (.inc (.pair .hl)) = none ∧ encodeTerm (.add (.reg .b)) = none ∧
    encodeTerm (.add (.reg .c)) = some 0x81#8 ∧ encodeTerm (.inc (.imm8 0x05#8)) = none := by decide

/-! ## Instructions -/

/-- V-NOP: the wrap. -/
theorem test_nop_wraps : (out (exec .nop (st 0 0 0 0 0 0xF0#8 0xFFFF#16))).pc = 0x0000#16 := by decide

/-- R100: the worked example. -/
theorem test_halt : (out (exec .halt (st 0 0 0 0 0 0xB0#8 0x000A#16))).pc = 0x0000#16 ∧
    (out (exec .halt (st 0 0 0 0 0 0xB0#8 0x000A#16))).status = .halted ∧
    (out (exec .halt (st 0 0 0 0 0 0xB0#8 0x000A#16))).flags.toByte = 0xB0#8 := by decide

/-- W3, ADD-2. -/
theorem test_add_source_example : (out (exec .addAC (st 0xFF 0 0x04 0 0 0 0))).regs.a = 0x03#8 ∧
    (out (exec .addAC (st 0xFF 0 0x04 0 0 0 0))).flags.toByte = 0x30#8 := by decide

/-- ADD-4: zero through carry without half-carry, and N cleared. -/
theorem test_add_zero_through_carry : (out (exec .addAC (st 0x80 0 0x80 0 0 0x40#8 0))).regs.a = 0x00#8 ∧
    (out (exec .addAC (st 0x80 0 0x80 0 0 0x40#8 0))).flags.toByte = 0x90#8 := by decide

/-- INC8-2: the carry flag kept. -/
theorem test_inc_b_keeps_carry : (out (exec .incB (st 0 0xFF 0 0 0 0x10#8 0))).regs.b = 0x00#8 ∧
    (out (exec .incB (st 0 0xFF 0 0 0 0x10#8 0))).flags.toByte = 0xB0#8 := by decide

/-- INC8-9, and N cleared (V-INC8). -/
theorem test_inc_b_half_carry : (out (exec .incB (st 0 0xEF 0 0 0 0x40#8 0))).regs.b = 0xF0#8 ∧
    (out (exec .incB (st 0 0xEF 0 0 0 0x40#8 0))).flags.toByte = 0x20#8 := by decide

/-- W5: the carry into B, no flag changed. -/
theorem test_inc_bc : (out (exec .incBC (st 0 0x00 0xFF 0 0 0xA0#8 0))).readPair .bc = 0x0100#16 ∧
    (out (exec .incBC (st 0 0x00 0xFF 0 0 0xA0#8 0))).regs.b = 0x01#8 ∧
    (out (exec .incBC (st 0 0x00 0xFF 0 0 0xA0#8 0))).flags.toByte = 0xA0#8 := by decide

/-- V-INC16: the wrap, and isolation from B, C, A. -/
theorem test_inc_de : (out (exec .incDE (st 0x33 0x11 0x22 0xFF 0xFF 0 0))).readPair .de = 0x0000#16 ∧
    (out (exec .incDE (st 0x33 0x11 0x22 0xFF 0xFF 0 0))).readPair .bc = 0x1122#16 ∧
    (out (exec .incDE (st 0x33 0x11 0x22 0xFF 0xFF 0 0))).flags.toByte = 0x00#8 := by decide

/-! ## Terms -/

/-- V-ADDT: Add(A) doubles. -/
theorem test_add_a : (out (execTerm (.add (.reg .a)) (st 0x88 0 0 0 0 0 0))).regs.a = 0x10#8 ∧
    (out (execTerm (.add (.reg .a)) (st 0x88 0 0 0 0 0 0))).flags.toByte = 0x30#8 := by decide

/-- V-INC8T: Inc(C) does not carry into B. -/
theorem test_inc_c : (out (execTerm (.inc (.reg .c)) (st 0 0 0xFF 0 0 0 0))).readPair .bc = 0x0000#16 ∧
    (out (execTerm (.inc (.reg .c)) (st 0 0 0xFF 0 0 0 0))).flags.toByte = 0xA0#8 := by decide

/-- R107: the worked example. -/
theorem test_add_bc_raises :
    (out (stepTerm (.add (.pair .bc)) (st 0 0 0 0 0 0 0x0100#16))).fault.kind.code = 2#2 ∧
    (out (stepTerm (.add (.pair .bc)) (st 0 0 0 0 0 0 0x0100#16))).fault.addr = 0x0100#16 ∧
    (out (stepTerm (.add (.pair .bc)) (st 0 0 0 0 0 0 0x0100#16))).fault.instrKind.code = 2#2 ∧
    (out (stepTerm (.add (.pair .bc)) (st 0 0 0 0 0 0 0x0100#16))).fault.target.code = 7#4 := by decide

/-- R118: the worked example. -/
theorem test_inc_mem_raises :
    (out (stepTerm (.inc .memHL) (st 0 0 0 0 0 0 0x0020#16))).fault =
      { kind := .unsupportedOperand, addr := 0x0020#16, byte := 0x00#8, instrKind := .inc, target := .memHL } := by
  decide

/-! ## Steps, flags byte, host -/

/-- The select codes of 40_engine.md R87 and R90 and 42_alu8.md R102. -/
theorem test_select_codes : Reg8.l.sel = 6#3 ∧ Pair.hl.sel = 2#2 ∧ PcSel.hold.code = 2#2 ∧ AluOp.none.code = 3#2 := by
  decide

/-- W6: the step vector. -/
theorem test_step_unknown_opcode : (out (step (at1 0x0000#16 0xFF#8))).fault.kind.code = 1#2 ∧
    (out (step (at1 0x0000#16 0xFF#8))).fault.byte = 0xFF#8 ∧
    (out (step (at1 0x0000#16 0xFF#8))).status = .faulted := by decide

/-- V-PC and R44: a fetch at 0xFFFF is ordinary and the pc wraps. -/
theorem test_step_at_top_of_memory : (out (step (at1 0xFFFF#16 0x04#8))).pc = 0x0000#16 ∧
    (out (step (at1 0xFFFF#16 0x04#8))).regs.b = 0x01#8 := by decide

/-- V-FLAGS: what `from_byte` discards. -/
theorem test_flags_byte : (Flags.fromByte 0xA5#8).toByte = 0xA0#8 ∧ (Flags.fromByte 0x5A#8).toByte = 0x50#8 ∧
    (Flags.fromByte 0xFF#8).toByte = 0xF0#8 := by decide

/-- P6: HALT as the first byte; a further request performs nothing. -/
theorem test_halt_first : (runRequest 1 (at1 0x0000#16 0x76#8)).map (fun r => (r.1.pc, r.2)) =
    some (0x0000#16, .halted) := by decide

/-- 40_engine.md R93: a write after the first step has no move. -/
theorem test_no_write_after_the_first_step :
    Session.reset.acts [.step, .write (.reg .a 0x01#8)] = none := by decide

/-- 30_encoding.md R74: a line with its comment, a directive, and what is no instruction. -/
theorem test_parse_lines :
    parseLines [['A', 'D', 'D', ' ', 'A', ',', 'C', ' ', ';', ' ', 'x'], ['.', 'o', 'r', 'g', ' ', '0', 'x', 'F', 'F', 'F', 'F'],
      ['x', ':'], ['.', 'b', 'y', 't', 'e', ' ', '0', 'x', 'C', 'B']] =
    some [.ins .addAC, .org 0xFFFF#16, .label ['x'], .byte 0xCB#8] := by decide

theorem test_parse_rejects_inc_hl : parseLine ['I', 'N', 'C', ' ', 'H', 'L'] = none := by decide

/-! ## Witnesses: each obligation's hypotheses are met -/

theorem witness_DecodesExactlyTheSixBytes :
    (0x82#8 : Byte) ≠ 0x00#8 ∧ (0x82#8 : Byte) ≠ 0x03#8 ∧ (0x82#8 : Byte) ≠ 0x04#8 ∧ (0x82#8 : Byte) ≠ 0x13#8 ∧
    (0x82#8 : Byte) ≠ 0x76#8 ∧ (0x82#8 : Byte) ≠ 0x81#8 := by decide

theorem witness_DecoderBlockDrivesItsTable : decodeByte 0x13#8 = some .incDE ∧ decodeByte 0x14#8 = none := by decide

theorem witness_TermDecodeAndEncodeAgree : (Term.inc (.pair .de)).encodable = true := by decide

theorem witness_InstructionStreamsRoundTrip :
    Instr.addAC.wf = true ∧ decodeStream [0x81#8, 0x76#8] = .ok [.addAC, .halt] ∧ decodeByte 0xCB#8 = none := by decide

theorem witness_AssembledProgramIsWhatMemoryHolds :
    State.reset.mem.wf = true ∧ [Instr.incB, .halt].length ≤ 65536 ∧ [Instr.incB, .halt][1]? = some .halt ∧
    [Instr.incB, .halt].length ≤ ((0xFFFE#16 : Word) - 0xFFFF#16).toNat := by decide

theorem witness_FlagsByteFormIsBitwise : (0xA5#8 : Byte) >>> 4 = (0xA0#8 : Byte) >>> 4 := by decide

theorem witness_RegistersAreIndependentStorage :
    Reg8.c ≠ Reg8.a ∧ Reg8.l ≠ Reg8.a := by decide

theorem witness_PairsAreViewsOfTwoRegisters :
    Pair.bc ≠ Pair.hl ∧ Reg8.a ≠ Pair.bc.high ∧ Reg8.a ≠ Pair.bc.low := by decide

theorem witness_CanonicalMemoriesThatReadAlikeAreEqual :
    Memory.wf [(0, 0x76#8), (65535, 0x04#8)] = true ∧
    ∀ a : Word, Memory.read [(0, 0x76#8), (65535, 0x04#8)] a = Memory.read [(0, 0x76#8), (65535, 0x04#8)] a :=
  ⟨by decide, fun _ => rfl⟩

theorem witness_HostWritesCommuteAndTheLastStands :
    State.reset.mem.wf = true ∧ hostLoc (.mem 0x0000#16 0x04#8) ≠ hostLoc (.mem 0xFFFF#16 0x76#8) ∧
    hostLoc (.flags (Flags.fromByte 0x50#8)) = hostLoc (.flagsByte 0xA0#8) := by decide

theorem witness_HostWritesOnlyBeforeTheFirstStep :
    (∃ x : Session, x.started = true) ∧ Session.reset.started = false ∧ Session.reset.core.mem.wf = true ∧
    (∃ y, Session.reset.act (.write (.mem 0xFFFF#16 0x04#8)) = some (y, .done)) ∧
    (∃ y, Session.reset.act (.write (.reg .h 0x12#8)) = some (y, .done)) ∧
    (∃ y, Session.reset.act (.write (.flags (Flags.fromByte 0xF0#8))) = some (y, .done)) ∧
    (∃ y, Session.reset.act (.write (.flagsByte 0xFF#8)) = some (y, .done)) :=
  ⟨⟨{ core := State.reset, started := true }, rfl⟩, rfl, rfl, ⟨_, rfl⟩, ⟨_, rfl⟩, ⟨_, rfl⟩, ⟨_, rfl⟩⟩

theorem witness_StepRequestAnswersSuccessFaultOrStatus :
    State.reset.status = .running ∧ (out (step (at1 0x0000#16 0x76#8))).status = .halted ∧
    (out (step (at1 0x0000#16 0xCB#8))).status = .faulted := by decide

theorem witness_InstancesShareNoState :
    ∃ ys p zs q, actOn [Session.reset, Session.reset] 0 .step = some (ys, p) ∧
      actOn ys 1 (.write (.reg .a 0x01#8)) = some (zs, q) ∧
      ∃ y r, [Session.reset, Session.reset][1]? = some Session.reset ∧ Session.reset.act .step = some (y, r) :=
  ⟨_, _, _, _, rfl, rfl, _, _, rfl, rfl⟩

theorem witness_StepRunsTheDecodedInstruction :
    (at1 0xFFFF#16 0x81#8).status = .running ∧
    decodeByte ((at1 0xFFFF#16 0x81#8).mem.read (at1 0xFFFF#16 0x81#8).pc) = some .addAC ∧
    (at1 0x0000#16 0xFF#8).status = .running ∧
    decodeByte ((at1 0x0000#16 0xFF#8).mem.read (at1 0x0000#16 0xFF#8).pc) = none := by decide

theorem witness_PlacedInstructionIsTheNextToRun :
    (at1 0xFFFF#16 0xCB#8).status = .running ∧ (at1 0xFFFF#16 0xCB#8).mem.wf = true := by decide

theorem witness_IllegalByteFaultsInPlace :
    (at1 0x0002#16 0xCB#8).status = .running ∧ (at1 0x0002#16 0xCB#8).mem.read (at1 0x0002#16 0xCB#8).pc = 0xCB#8 ∧
    (out (step (at1 0x0002#16 0xCB#8))).status = .faulted := by decide

theorem witness_TerminalStatusTakesNoStep :
    (out (step (at1 0x0000#16 0x76#8))).status ≠ .running ∧
    (out (step (at1 0x0000#16 0xCB#8))).status ≠ .running := by decide

theorem witness_StepReadsOnlyTheByteAtPc :
    Memory.read [(7, 0x04#8)] (0x0000#16 : Word) = State.reset.mem.read State.reset.pc ∧
    ∃ t, step State.reset = .next t := ⟨by decide, _, rfl⟩

theorem witness_StepKeepsTheInvariant :
    State.reset.Inv ∧ (∃ t, step State.reset = .next t) ∧ ∃ t, stepTerm (.add .memHL) State.reset = .next t :=
  ⟨⟨rfl, by decide, .inl rfl⟩, ⟨_, rfl⟩, ⟨_, rfl⟩⟩

theorem witness_SessionKeepsTheInvariant :
    Session.reset.Inv ∧
    ∃ y, Session.reset.acts [.write (.mem 0x0001#16 0x76#8), .step, .read .pc, .run 1] = some y :=
  ⟨⟨⟨rfl, by decide, .inl rfl⟩, fun _ => ⟨rfl, rfl⟩⟩, ⟨_, rfl⟩⟩

theorem witness_PcAfterOneStep :
    (at1 0xFFFF#16 0x13#8).status = .running ∧ (∃ t, step (at1 0xFFFF#16 0x13#8) = .next t) ∧
    decodeByte ((at1 0xFFFF#16 0x13#8).mem.read (at1 0xFFFF#16 0x13#8).pc) = some .incDE ∧
    decodeByte ((at1 0xFFFF#16 0x76#8).mem.read (at1 0xFFFF#16 0x76#8).pc) = some .halt ∧
    decodeByte ((at1 0xFFFF#16 0x77#8).mem.read (at1 0xFFFF#16 0x77#8).pc) = none :=
  ⟨rfl, ⟨_, rfl⟩, by decide, by decide, by decide⟩

theorem witness_StatusAfterOneStep :
    (at1 0x0000#16 0x76#8).status = .running ∧ ∃ t, step (at1 0x0000#16 0x76#8) = .next t := ⟨rfl, _, rfl⟩

theorem witness_OnlyHaltSetsTheHaltFlag :
    (∃ t, step (at1 0x0000#16 0x76#8) = .next t ∧ (at1 0x0000#16 0x76#8).halted = false ∧ t.halted = true) ∧
    (∃ t, step { State.reset with halted := true } = .next t) ∧ ∃ t, exec .halt State.reset = .next t :=
  ⟨⟨_, rfl, rfl, rfl⟩, ⟨_, rfl⟩, ⟨_, rfl⟩⟩

theorem witness_FlagsAreWrittenOnlyByAddAndIncB :
    (∃ t, exec .nop State.reset = .next t) ∧ (∃ t, exec .halt State.reset = .next t) ∧
    (∃ t, exec .incBC State.reset = .next t) ∧ (∃ t, exec .incDE State.reset = .next t) ∧
    (∃ t, exec .incB State.reset = .next t) ∧ (∃ t, exec .addAC State.reset = .next t) ∧
    ∃ t, step (st 0 0 0 0 0 0x40#8 0) = .next t ∧ t.flags.n = true :=
  ⟨⟨_, rfl⟩, ⟨_, rfl⟩, ⟨_, rfl⟩, ⟨_, rfl⟩, ⟨_, rfl⟩, ⟨_, rfl⟩, ⟨_, rfl, rfl⟩⟩

theorem witness_RegistersAreWrittenOnlyAsTheAccessTableSays :
    (∃ t, exec .incDE State.reset = .next t) ∧ ∃ t, StepsTo 2 State.reset t := ⟨⟨_, rfl⟩, ⟨_, rfl⟩⟩

theorem witness_HaltSetsTheHaltFlagAndZeroesPc :
    State.reset.fault.kind = .none ∧ ∃ t, exec .halt State.reset = .next t ∧ ∃ u, step t = .next u :=
  ⟨rfl, _, rfl, _, rfl⟩

theorem witness_UnsupportedTargetsRaiseAndChangeNothingElse :
    (Term.add (.imm8 0xFF#8)).supported = false ∧ (Term.inc (.pair .hl)).supported = true ∧
    ∃ t, execTerm (.inc (.pair .hl)) State.reset = .next t := ⟨rfl, rfl, _, rfl⟩

theorem witness_NoFetchedByteRaisesUnsupportedOperand :
    ∃ s t : State, step s = .next t ∧ t.fault.kind = .unsupportedOperand :=
  ⟨out (stepTerm (.add .memHL) State.reset), _, rfl, rfl⟩

theorem witness_Inc16CarriesFromLowToHigh :
    (∃ t, execTerm (.inc (.pair .bc)) (st 0 0xFF 0xFF 0 0 0 0) = .next t) ∧
    (st 0 0xFF 0xFF 0 0 0 0).readReg Pair.bc.low = 0xFF#8 ∧ (st 0 0xFF 0xFF 0 0 0 0).readPair .bc = 0xFFFF#16 ∧
    (st 0 0xFF 0xFE 0 0 0 0).readReg Pair.bc.low ≠ 0xFF#8 := ⟨⟨_, rfl⟩, by decide, by decide, by decide⟩

theorem witness_PortsWriteAtMostOnceAndDisabledFlagsKeepTheirValue :
    (Flags.fromByte 0x00#8).z = false ∧
    (executeControl { valid := true, kind := .inc, target := .memHL }).raises ≠ .none ∧
    (executeControl { valid := false, kind := .nop, target := .a }).raises ≠ .none := ⟨rfl, nofun, nofun⟩

theorem witness_RunOfNopsAdvancesPcOnly :
    State.reset.status = .running ∧
    ∀ j, j < 3 → State.reset.mem.read (State.reset.pc + BitVec.ofNat 16 j) = 0x00#8 := ⟨rfl, fun _ _ => rfl⟩

theorem witness_RunningPcCountsTheSteps :
    (at1 0xFFFF#16 0x04#8).status = .running ∧
    ∃ t, StepsTo 2 (at1 0xFFFF#16 0x04#8) t ∧ t.status = .running := ⟨rfl, _, rfl, rfl⟩

theorem witness_RunReturnsTheFirstTerminalState :
    (∃ t, runFuel 1 (at1 0x0000#16 0x76#8) = some t) ∧
    (∃ t, runRequest 1 (at1 0x0000#16 0x76#8) = some (t, .halted)) ∧
    (∃ t r, runRequest 1 (at1 0x0000#16 0xCB#8) = some (t, .faulted r)) ∧
    ∃ y r, Session.act { core := at1 0x0000#16 0x76#8, started := false } (.run 1) = some (y, r) :=
  ⟨⟨_, rfl⟩, ⟨_, rfl⟩, ⟨_, _, rfl⟩, ⟨_, _, rfl⟩⟩

theorem witness_EndOfRunIsHaltOrFaultInPlace :
    State.reset.status = .running ∧ ∃ t, runFuel 2 { at1 0x0000#16 0x76#8 with pc := 0xFFFF#16 } = some t :=
  ⟨rfl, _, rfl⟩

theorem witness_RunEndsAtTheFirstStoppingByte :
    ({ at1 0x0000#16 0xCB#8 with pc := 0xFFFF#16 } : State).status = .running ∧ 1 < 65536 ∧
    (∀ j, j < 1 → stopsRun ((at1 0x0000#16 0xCB#8).mem.read (0xFFFF#16 + BitVec.ofNat 16 j)) = false) ∧
    stopsRun ((at1 0x0000#16 0xCB#8).mem.read (0xFFFF#16 + BitVec.ofNat 16 1)) = true ∧
    stopsRun ((at1 0x0000#16 0x76#8).mem.read (0x0000#16 + BitVec.ofNat 16 0)) = true := by
  refine ⟨rfl, by decide, ?_, by decide, by decide⟩
  intro j hj
  obtain rfl : j = 0 := by omega
  decide

theorem witness_RunNeverEndsWithoutAStoppingByte :
    State.reset.status = .running ∧ ∀ a : Word, stopsRun (State.reset.mem.read a) = false := ⟨rfl, fun _ => rfl⟩

theorem witness_MemoryOfDecodableBytesRunsSafely :
    State.reset.status = .running ∧ ∀ a : Word, (decodeByte (State.reset.mem.read a)).isSome = true :=
  ⟨rfl, fun _ => rfl⟩

theorem witness_FlagsChangeOnlyWhereTheirWritersAreFetched :
    ∃ t, StepsTo 1 (st 0 0 0 0 0 0x50#8 0) t ∧ t.flags.n = true ∧
      ∀ m, m < 1 → ∀ u, StepsTo m (st 0 0 0 0 0 0x50#8 0) u → u.status = .running →
        u.mem.read u.pc ≠ 0x81#8 ∧ u.mem.read u.pc ≠ 0x04#8 := by
  refine ⟨_, rfl, rfl, ?_⟩
  intro m hm u hu _
  obtain rfl : m = 0 := by omega
  rw [stepsTo_zero] at hu
  subst hu
  decide

end Sys2Proof.Tests
end

/-! The state family (10_state.md): register and pair views, the halt flag, the flags' byte form. -/

namespace Sys2Proof.Machine

/-! ## Registers of the machine -/

@[simp] theorem State.readReg_writeReg_same (s : State) (r : Reg8) (v : Byte) :
    (s.writeReg r v).readReg r = v := Regs.get_set_same s.regs r v

theorem State.readReg_writeReg_other (s : State) {r r' : Reg8} (v : Byte) (h : r' ≠ r) :
    (s.writeReg r v).readReg r' = s.readReg r' := Regs.get_set_other s.regs r r' v h

/-- States that agree in every register and in everything else are equal. -/
theorem State.eq_of_readReg {s t : State} (hregs : ∀ r, s.readReg r = t.readReg r)
    (hrest : { s with regs := t.regs } = t) : s = t := by
  have heq : s.regs = t.regs := Regs.ext_get s.regs t.regs hregs
  rw [← hrest, ← heq]

/-! ## The bytes of a pair's value (10_state.md R22) -/

theorem highByte_toNat (v : Word) : (highByte v).toNat = v.toNat / 256 := by
  have hv := v.isLt
  simp only [highByte, BitVec.truncate_eq_setWidth, BitVec.toNat_setWidth, BitVec.toNat_ushiftRight,
    Nat.shiftRight_eq_div_pow]
  omega

theorem lowByte_toNat (v : Word) : (lowByte v).toNat = v.toNat % 256 := by
  simp [lowByte]

/-! ## Which registers a pair names (10_state.md R21, R23) -/

theorem Pair.a_ne_high (p : Pair) : Reg8.a ≠ p.high := by cases p <;> decide

theorem Pair.a_ne_low (p : Pair) : Reg8.a ≠ p.low := by cases p <;> decide

/-- No register of a pair is a register of another pair. -/
theorem Pair.registers_disjoint {p q : Pair} (h : p ≠ q) :
    q.high ≠ p.high ∧ q.high ≠ p.low ∧ q.low ≠ p.high ∧ q.low ≠ p.low := by
  revert h
  cases p <;> cases q <;> decide

/-! ## Reading and writing a pair -/

theorem State.readPair_toNat (s : State) (p : Pair) :
    (s.readPair p).toNat = (s.readReg p.high).toNat * 256 + (s.readReg p.low).toNat :=
  joinBytes_toNat (s.readReg p.high) (s.readReg p.low)

/-- A pair's value follows its two registers and nothing else. -/
theorem State.readPair_congr {s t : State} {p : Pair} (hhigh : s.readReg p.high = t.readReg p.high)
    (hlow : s.readReg p.low = t.readReg p.low) : s.readPair p = t.readPair p := by
  rw [State.readPair, State.readPair, hhigh, hlow]

@[simp] theorem State.readReg_writePair_high (s : State) (p : Pair) (v : Word) :
    (s.writePair p v).readReg p.high = highByte v := by
  rw [State.writePair, State.readReg_writeReg_other _ _ (Pair.high_ne_low p), State.readReg_writeReg_same]

@[simp] theorem State.readReg_writePair_low (s : State) (p : Pair) (v : Word) :
    (s.writePair p v).readReg p.low = lowByte v :=
  State.readReg_writeReg_same _ p.low (lowByte v)

theorem State.readReg_writePair_other (s : State) {p : Pair} (v : Word) {r : Reg8} (hhigh : r ≠ p.high)
    (hlow : r ≠ p.low) : (s.writePair p v).readReg r = s.readReg r := by
  rw [State.writePair, State.readReg_writeReg_other _ _ hlow, State.readReg_writeReg_other _ _ hhigh]

/-- A pair write touches the register file alone. -/
theorem State.writePair_frame (s : State) (p : Pair) (v : Word) :
    { s.writePair p v with regs := s.regs } = s := rfl

@[simp] theorem State.readPair_writePair_same (s : State) (p : Pair) (v : Word) :
    (s.writePair p v).readPair p = v := by
  rw [State.readPair, State.readReg_writePair_high, State.readReg_writePair_low, joinBytes_parts]

theorem State.readPair_writePair_other (s : State) {p q : Pair} (v : Word) (h : p ≠ q) :
    (s.writePair p v).readPair q = s.readPair q := by
  obtain ⟨hhh, hhl, hlh, hll⟩ := Pair.registers_disjoint h
  exact State.readPair_congr (s.readReg_writePair_other v hhh hhl) (s.readReg_writePair_other v hlh hll)

/-- Writing back the value a pair holds changes nothing: each of its registers gets its own byte. -/
@[simp] theorem State.writePair_readPair (s : State) (p : Pair) : s.writePair p (s.readPair p) = s := by
  refine State.eq_of_readReg (fun r => ?_) (s.writePair_frame p _)
  by_cases hhigh : r = p.high
  · rw [hhigh, State.readReg_writePair_high, State.readPair, highByte_joinBytes]
  · by_cases hlow : r = p.low
    · rw [hlow, State.readReg_writePair_low, State.readPair, lowByte_joinBytes]
    · exact s.readReg_writePair_other _ hhigh hlow

theorem State.readPair_writeReg_high_toNat (s : State) (p : Pair) (v : Byte) :
    ((s.writeReg p.high v).readPair p).toNat = v.toNat * 256 + (s.readReg p.low).toNat := by
  rw [State.readPair_toNat, State.readReg_writeReg_same, State.readReg_writeReg_other _ _ (Pair.high_ne_low p).symm]

theorem State.readPair_writeReg_low_toNat (s : State) (p : Pair) (v : Byte) :
    ((s.writeReg p.low v).readPair p).toNat = (s.readReg p.high).toNat * 256 + v.toNat := by
  rw [State.readPair_toNat, State.readReg_writeReg_same, State.readReg_writeReg_other _ _ (Pair.high_ne_low p)]

/-- Settles O11: a pair's value is that of its two registers, a pair write is two register writes, and no
register belongs to two pairs or is A. -/
theorem pairsAreViewsOfTwoRegisters : Obligations.PairsAreViewsOfTwoRegisters := by
  unfold Obligations.PairsAreViewsOfTwoRegisters
  refine ⟨fun s => ⟨s.readPair_toNat .bc, s.readPair_toNat .de, s.readPair_toNat .hl⟩,
    fun s p v => ⟨?_, ?_, fun r => s.readReg_writePair_other v, s.writePair_frame p v⟩,
    State.readPair_writePair_same, State.writePair_readPair,
    fun s p v => ⟨s.readPair_writeReg_high_toNat p v, s.readPair_writeReg_low_toNat p v⟩,
    fun s p q v h => ⟨s.readPair_writePair_other v h,
      s.readReg_writePair_other v (Pair.a_ne_high p) (Pair.a_ne_low p)⟩⟩
  · rw [State.readReg_writePair_high, highByte_toNat]
  · rw [State.readReg_writePair_low, lowByte_toNat]

/-! ## The halt flag (10_state.md R32) -/

/-- After an instruction the halt flag is set exactly when it was set before or the instruction is HALT. -/
theorem exec_halted_iff {i : Instr} {s t : State} (h : exec i s = .next t) :
    t.halted = true ↔ s.halted = true ∨ i = .halt := by
  obtain ⟨rfl, rfl⟩ | ⟨rfl, rfl⟩ | ⟨rfl, rfl⟩ | ⟨rfl, rfl⟩ | ⟨rfl, rfl⟩ | ⟨rfl, rfl⟩ :=
    exec_cases h <;> simp

/-- No term clears the halt flag, those that raise among them. -/
theorem execTerm_keeps_halted {i : Term} {s t : State} (h : execTerm i s = .next t) (hs : s.halted = true) :
    t.halted = true := by
  obtain ⟨-, rfl⟩ | ⟨-, rfl⟩ | ⟨-, rfl⟩ | ⟨r, -, rfl⟩ | ⟨r, -, rfl⟩ | ⟨p, -, rfl⟩ :=
    execTerm_cases h <;> simp [hs]

/-- After a step the halt flag is set exactly when it was set before or a RUNNING core fetched HALT. -/
theorem step_halted_iff {s t : State} (h : step s = .next t) :
    t.halted = true ↔ s.halted = true ∨ (s.status = .running ∧ decodeByte s.fetch = some .halt) := by
  obtain ⟨hstop, rfl⟩ | ⟨-, hnone, rfl⟩ | ⟨hrun, i, hi, hexec⟩ := step_cases h
  · simp [hstop]
  · simp [hnone]
  · simp [exec_halted_iff hexec, hrun, hi]

/-- Settles O28: each clause is read off what an instruction, a term or a step does to the halt flag. -/
theorem onlyHaltSetsTheHaltFlag : Obligations.OnlyHaltSetsTheHaltFlag := by
  unfold Obligations.OnlyHaltSetsTheHaltFlag
  refine ⟨rfl, fun s t h hs => (step_halted_iff h).mpr (.inl hs), fun s t h hs ht => ?_,
    fun i s t h hs => ?_, fun i s t => execTerm_keeps_halted⟩
  · obtain hset | ⟨-, hfetch⟩ := (step_halted_iff h).mp ht
    · simp [hs] at hset
    · exact hfetch
  · simp [exec_halted_iff h, hs]

/-! ## The byte form of the flags (10_state.md R26, R27) -/

/-- The bits of the byte form that carry a flag. -/
theorem Flags.toByte_high (f : Flags) :
    f.toByte.getLsbD 7 = f.z ∧ f.toByte.getLsbD 6 = f.n ∧ f.toByte.getLsbD 5 = f.h ∧
      f.toByte.getLsbD 4 = f.c := by
  simp [Flags.toByte]

/-- Below bit 4 the byte form is zero: every flag is shifted past it. -/
theorem Flags.toByte_low (f : Flags) {i : Nat} (hi : i < 4) : f.toByte.getLsbD i = false := by
  have h5 : i < 5 := by omega
  have h6 : i < 6 := by omega
  have h7 : i < 7 := by omega
  simp [Flags.toByte, hi, h5, h6, h7]

/-- The flags a byte gives are the bits of its high nibble. -/
theorem Flags.fromByte_eq_ofNibble (b : Byte) : Flags.fromByte b = Flags.ofNibble ((b >>> 4).truncate 4) := by
  simp [Flags.fromByte, Flags.ofNibble]

/-- Settles O8: each flag has its own bit of the high nibble, and the low nibble is shifted out. -/
theorem flagsByteFormIsBitwise : Obligations.FlagsByteFormIsBitwise := by
  unfold Obligations.FlagsByteFormIsBitwise
  refine ⟨fun f => ?_, fun b => ⟨rfl, rfl, rfl, rfl⟩, fun b b' h => ?_⟩
  · obtain ⟨hz, hn, hh, hc⟩ := f.toByte_high
    exact ⟨hz, hn, hh, hc, f.toByte_low (by decide), f.toByte_low (by decide), f.toByte_low (by decide),
      f.toByte_low (by decide)⟩
  · rw [Flags.fromByte_eq_ofNibble, Flags.fromByte_eq_ofNibble, h]

end Sys2Proof.Machine

/-! The encoding family (30_encoding.md): which bytes decode, and how many do not. -/

namespace Sys2Proof

/-! ## The decoder and the encoder (30_encoding.md R61, R64) -/

@[simp] theorem decodeByte_encode (i : Instr) : decodeByte (encode i) = some i := by
  cases i <;> rfl

/-- A byte that decodes is the byte of what it decodes to. -/
theorem encode_eq_of_decodeByte {b : Byte} {i : Instr} (h : decodeByte b = some i) : encode i = b := by
  unfold decodeByte at h
  split at h <;> cases h <;> rfl

/-- A byte decodes to none exactly when it is no instruction's byte. -/
theorem decodeByte_eq_none_iff {b : Byte} : decodeByte b = none ↔ ∀ i, b ≠ encode i := by
  rw [Option.eq_none_iff_forall_ne_some]
  refine ⟨fun h i hb => h i ?_, fun h i hi => h i (encode_eq_of_decodeByte hi).symm⟩
  rw [hb, decodeByte_encode]

@[simp] theorem decodeTerm_encode (i : Instr) : decodeTerm (encode i) = some i.term := by
  simp [decodeTerm]

/-- The term decoder rejects the bytes the instruction decoder rejects. -/
theorem decodeTerm_eq_none_iff {b : Byte} : decodeTerm b = none ↔ decodeByte b = none :=
  Option.map_eq_none_iff

/-! ## Counting the bytes (30_encoding.md R64) -/

/-- The byte values that decode are those of the instructions, each once. -/
theorem decodableBytes_perm :
    (List.range 256).filter (fun n => (decodeTerm (BitVec.ofNat 8 n)).isSome) |>.Perm
      ([Instr.nop, .incBC, .incB, .incDE, .halt, .addAC].map fun i => (encode i).toNat) := by
  refine (List.perm_ext_iff_of_nodup (List.nodup_range.filter _) (by decide)).mpr fun n => ?_
  rw [List.mem_filter, List.mem_range, List.mem_map]
  constructor
  · rintro ⟨hn, hsome⟩
    rw [decodeTerm, Option.isSome_map, Option.isSome_iff_exists] at hsome
    obtain ⟨i, hi⟩ := hsome
    refine ⟨i, by cases i <;> decide, ?_⟩
    rw [encode_eq_of_decodeByte hi, BitVec.toNat_ofNat, Nat.mod_eq_of_lt hn]
  · rintro ⟨i, -, rfl⟩
    exact ⟨(encode i).isLt, by simp⟩

/-- The bytes are 256 and six of them decode. -/
theorem countP_undecodableBytes :
    (List.range 256).countP (fun n => (decodeTerm (BitVec.ofNat 8 n)).isNone) = 250 := by
  have hsome : (List.range 256).countP (fun n => (decodeTerm (BitVec.ofNat 8 n)).isSome) = 6 := by
    rw [List.countP_eq_length_filter, decodableBytes_perm.length_eq]
    rfl
  have hall := (List.range 256).length_eq_countP_add_countP (fun n => (decodeTerm (BitVec.ofNat 8 n)).isSome)
  simp only [hsome, List.length_range, Bool.not_eq_true, Option.isSome_eq_false_iff, Bool.decide_eq_true] at hall
  omega

/-- Settles O1: each of the six bytes is its instruction's, and a byte that is none of them is no
instruction's. -/
theorem decodesExactlyTheSixBytes : Obligations.DecodesExactlyTheSixBytes := by
  unfold Obligations.DecodesExactlyTheSixBytes
  refine ⟨decodeTerm_encode .nop, decodeTerm_encode .incBC, decodeTerm_encode .incB, decodeTerm_encode .incDE,
    decodeTerm_encode .halt, decodeTerm_encode .addAC, fun b hnop hincBC hincB hincDE hhalt haddAC => ?_,
    countP_undecodableBytes⟩
  rw [decodeTerm_eq_none_iff, decodeByte_eq_none_iff]
  intro i
  cases i <;> assumption

end Sys2Proof

/-! The control family (41_control.md): NOP and the program counter it advances. -/

namespace Sys2Proof.Machine

/-- NOP commits the next pc and touches no other part of the state (41_control.md R98). -/
theorem exec_nop (s : State) : exec .nop s = .next (s.commitPc .seq) := rfl

/-- The sequential pc as a number: one more, wrapping at 0xFFFF (40_engine.md R88). -/
theorem nextPc_seq_eq_ofNat (pc : Word) : nextPc .seq pc = BitVec.ofNat 16 ((pc.toNat + 1) % 65536) := by
  apply BitVec.eq_of_toNat_eq
  simp [nextPc, BitVec.toNat_add]

/-- A sequential commit is the update of pc alone to the sequential pc. -/
theorem State.commitPc_seq_eq_ofNat (s : State) :
    s.commitPc .seq = { s with pc := BitVec.ofNat 16 ((s.pc.toNat + 1) % 65536) } := by
  rw [← nextPc_seq_eq_ofNat]
  rfl

/-- Settles O31: NOP is the sequential commit, which moves pc alone. -/
theorem nopAdvancesPcOnly : Obligations.NopAdvancesPcOnly := by
  unfold Obligations.NopAdvancesPcOnly
  refine ⟨decodeByte_encode .nop, fun s => ?_⟩
  rw [exec_nop, State.commitPc_seq_eq_ofNat]

end Sys2Proof.Machine

/-! The 8-bit arithmetic family (42_alu8.md): what ADD8 and INC8 answer, as numbers, and ADD A,C. -/

namespace Sys2Proof.Machine

/-! ## ADD8 (42_alu8.md R103, R104) -/

theorem add8_toNat (a b : Byte) : (add8 a b).toNat = (a.toNat + b.toNat) % 256 := by
  rw [add8, BitVec.truncate_eq_setWidth, BitVec.toNat_setWidth, add8Sum_toNat]

theorem add8Flags_z_iff (a b : Byte) : (add8Flags a b).z = true ↔ add8 a b = 0x00#8 :=
  decide_eq_true_iff

@[simp] theorem add8Flags_n (a b : Byte) : (add8Flags a b).n = false := rfl

/-- The half carry is the carry out of the sum of the low nibbles, which fits in a byte. -/
theorem add8Flags_h_iff (a b : Byte) : (add8Flags a b).h = true ↔ a.toNat % 16 + b.toNat % 16 > 15 := by
  have hfits : ((a &&& 0x0F#8) + (b &&& 0x0F#8)).toNat = a.toNat % 16 + b.toNat % 16 := by
    rw [BitVec.toNat_add, lowNibble_toNat, lowNibble_toNat]
    omega
  rw [← hfits]
  exact decide_eq_true_iff

/-- The carry is read off the exact sum, before it wraps. -/
theorem add8Flags_c_iff (a b : Byte) : (add8Flags a b).c = true ↔ a.toNat + b.toNat > 255 := by
  rw [← add8Sum_toNat]
  exact decide_eq_true_iff

/-- Settles O43: ADD8 drives the sum and its flags, every enable set. -/
theorem add8SumAndFlags : Obligations.Add8SumAndFlags := by
  unfold Obligations.Add8SumAndFlags
  exact fun a b w f => ⟨_, rfl, add8_toNat a b, add8Flags_z_iff a b, add8Flags_n a b, add8Flags_h_iff a b,
    add8Flags_c_iff a b, rfl⟩

/-! ## INC8 (42_alu8.md R105) -/

theorem inc8_toNat (v : Byte) : (inc8 v).toNat = (v.toNat + 1) % 256 := BitVec.toNat_add v 0x01#8

theorem inc8Flags_z_iff (v : Byte) (old : Flags) : (inc8Flags v old).z = true ↔ inc8 v = 0x00#8 :=
  decide_eq_true_iff

@[simp] theorem inc8Flags_n (v : Byte) (old : Flags) : (inc8Flags v old).n = false := rfl

/-- The half carry is set when the low nibble is full. -/
theorem inc8Flags_h_iff (v : Byte) (old : Flags) : (inc8Flags v old).h = true ↔ v.toNat % 16 = 15 := by
  rw [← lowNibble_toNat]
  exact decide_eq_true_iff.trans BitVec.toNat_inj.symm

@[simp] theorem inc8Flags_c (v : Byte) (old : Flags) : (inc8Flags v old).c = old.c := rfl

/-- Settles O44: INC8 drives the increment and its flags, the carry's enable clear and its value the old one. -/
theorem inc8ResultAndFlags : Obligations.Inc8ResultAndFlags := by
  unfold Obligations.Inc8ResultAndFlags
  exact fun a b w f => ⟨_, rfl, inc8_toNat a, inc8Flags_z_iff a f, inc8Flags_n a f, inc8Flags_h_iff a f,
    inc8Flags_c a f, rfl⟩

/-! ## ADD A,C (42_alu8.md R108) -/

/-- ADD A,C writes A and the flags from the operands before the step, then commits the next pc. -/
theorem exec_addAC (s : State) :
    exec .addAC s = .next (((s.writeReg .a (add8 s.regs.a s.regs.c)).writeFlags
      (add8Flags s.regs.a s.regs.c)).commitPc .seq) := rfl

theorem nextPc_seq_toNat (pc : Word) : (nextPc .seq pc).toNat = (pc.toNat + 1) % 65536 :=
  BitVec.toNat_add pc 0x0001#16

/-- Settles O33: A and the flags are those of ADD8 on A and C, and the three writes of the step touch A, the
flags and pc alone. -/
theorem addACResultFlagsAndFrame : Obligations.AddACResultFlagsAndFrame := by
  unfold Obligations.AddACResultFlagsAndFrame
  refine ⟨decodeByte_encode .addAC, fun s => ⟨_, exec_addAC s, add8_toNat s.regs.a s.regs.c, ?_,
    add8Flags_n s.regs.a s.regs.c, add8Flags_h_iff s.regs.a s.regs.c, add8Flags_c_iff s.regs.a s.regs.c,
    nextPc_seq_toNat s.pc, rfl, rfl, rfl, fun _ => rfl⟩⟩
  rw [← add8_toNat]
  exact (add8Flags_z_iff s.regs.a s.regs.c).trans BitVec.toNat_inj.symm

end Sys2Proof.Machine

/-! Encoding, continued (30_encoding.md sections 4, 5, 7): streams, terms, and the decoder block. -/

namespace Sys2Proof

/-! ## Streams of instructions (30_encoding.md sections 2, 4, 5) -/

theorem decode_encode_cons (i : Instr) (rest : List Byte) : decode (encode i :: rest) = .ok (i, rest) := by
  simp [decode]

/-- The bytes of a list of instructions decode to that list, whatever the bytes after them decode to. -/
theorem decodeStream_encodeStream_append (is : List Instr) (bs : List Byte) :
    decodeStream (encodeStream is ++ bs) = (decodeStream bs).map (is ++ ·) := by
  induction is with
  | nil => cases h : decodeStream bs <;> simp [encodeStream, Except.map, h]
  | cons i is ih =>
    have hcons : encodeStream (i :: is) ++ bs = encode i :: (encodeStream is ++ bs) := rfl
    rw [hcons, decodeStream, decodeByte_encode, ih]
    cases decodeStream bs <;> rfl

/-- A stream decodes exactly when its first byte and the rest both do. -/
theorem decodeStream_cons_eq_ok_iff {b : Byte} {bs : List Byte} {is : List Instr} :
    decodeStream (b :: bs) = .ok is ↔
      ∃ i js, decodeByte b = some i ∧ decodeStream bs = .ok js ∧ is = i :: js := by
  cases hb : decodeByte b <;> cases hbs : decodeStream bs <;> simp [decodeStream, hb, hbs, eq_comm]

/-- A stream of bytes that decodes is the encoding of what it decodes to. -/
theorem encodeStream_eq_of_decodeStream {bs : List Byte} {is : List Instr} (h : decodeStream bs = .ok is) :
    encodeStream is = bs := by
  induction bs generalizing is with
  | nil =>
    cases h
    rfl
  | cons b bs ih =>
    obtain ⟨i, js, hi, hjs, rfl⟩ := decodeStream_cons_eq_ok_iff.mp h
    have htail : js.map encode = bs := ih hjs
    rw [encodeStream, List.map_cons, encode_eq_of_decodeByte hi, htail]

/-- Settles O4: the bytes of a list of instructions decode to the list followed by what the bytes after them
decode to, which is nothing, or the reject of a byte that is no instruction's. -/
theorem instructionStreamsRoundTrip : Obligations.InstructionStreamsRoundTrip := by
  unfold Obligations.InstructionStreamsRoundTrip
  refine ⟨fun i rest _ => decode_encode_cons i rest, fun is => ⟨List.length_map encode, ?_⟩,
    fun bs is => encodeStream_eq_of_decodeStream, fun is b rest hb => ?_⟩
  · have h := decodeStream_encodeStream_append is []
    simpa [decodeStream, Except.map] using h
  · have hstop : decodeStream (b :: rest) = .error (.unknownOpcode b) := by simp [decodeStream, hb]
    rw [decodeStream_encodeStream_append, hstop]
    rfl

/-! ## Terms and their bytes (30_encoding.md section 5) -/

/-- What the per-instruction codec laws say, of every instruction. -/
theorem codec (i : Instr) : Laws.Codec.Statement i := by
  cases i with
  | nop => exact Laws.Codec.nop
  | incBC => exact Laws.Codec.incBC
  | incB => exact Laws.Codec.incB
  | incDE => exact Laws.Codec.incDE
  | halt => exact Laws.Codec.halt
  | addAC => exact Laws.Codec.addAC

@[simp] theorem encodeTerm_term (i : Instr) : encodeTerm i.term = some (encode i) := by
  obtain ⟨-, -, henc, -⟩ := codec i
  exact henc

theorem term_supported (i : Instr) : i.term.supported = true := by
  obtain ⟨-, -, -, hsup, -⟩ := codec i
  exact hsup

theorem term_encodable (i : Instr) : i.term.encodable = true := by
  obtain ⟨-, -, -, -, henc⟩ := codec i
  exact henc

/-- The terms that have a byte are those of the six instructions. -/
theorem exists_term_of_encodeTerm {t : Term} {b : Byte} (h : encodeTerm t = some b) : ∃ i : Instr, i.term = t := by
  unfold encodeTerm at h
  split at h
  · exact ⟨.nop, rfl⟩
  · exact ⟨.incBC, rfl⟩
  · exact ⟨.incB, rfl⟩
  · exact ⟨.incDE, rfl⟩
  · exact ⟨.halt, rfl⟩
  · exact ⟨.addAC, rfl⟩
  · cases h

/-- The encodable terms are those of the six instructions. -/
theorem exists_term_of_encodable {t : Term} (h : t.encodable = true) : ∃ i : Instr, i.term = t := by
  cases t with
  | nop => exact ⟨.nop, rfl⟩
  | halt => exact ⟨.halt, rfl⟩
  | add t =>
    obtain rfl : t = .reg .c := by simpa [Term.encodable] using h
    exact ⟨.addAC, rfl⟩
  | inc t =>
    obtain (rfl | rfl) | rfl : (t = .reg .b ∨ t = .pair .bc) ∨ t = .pair .de := by simpa [Term.encodable] using h
    · exact ⟨.incB, rfl⟩
    · exact ⟨.incBC, rfl⟩
    · exact ⟨.incDE, rfl⟩

theorem decodeTerm_eq_some_iff {b : Byte} {t : Term} :
    decodeTerm b = some t ↔ ∃ i, decodeByte b = some i ∧ i.term = t :=
  Option.map_eq_some_iff

/-- Decoding to a term and encoding it are inverse. -/
theorem decodeTerm_iff_encodeTerm (b : Byte) (t : Term) : decodeTerm b = some t ↔ encodeTerm t = some b := by
  constructor
  · rw [decodeTerm_eq_some_iff]
    rintro ⟨i, hi, rfl⟩
    rw [encodeTerm_term, encode_eq_of_decodeByte hi]
  · intro h
    obtain ⟨i, rfl⟩ := exists_term_of_encodeTerm h
    rw [encodeTerm_term] at h
    cases h
    exact decodeTerm_encode i

/-- A term has a byte exactly when it is encodable. -/
theorem encodeTerm_isSome (t : Term) : (encodeTerm t).isSome = t.encodable := by
  rw [Bool.eq_iff_iff, Option.isSome_iff_exists]
  constructor
  · rintro ⟨b, hb⟩
    obtain ⟨i, rfl⟩ := exists_term_of_encodeTerm hb
    exact term_encodable i
  · intro h
    obtain ⟨i, rfl⟩ := exists_term_of_encodable h
    exact ⟨encode i, encodeTerm_term i⟩

/-- Settles O3: the terms that have a byte are those of the six instructions, where both directions are known. -/
theorem termDecodeAndEncodeAgree : Obligations.TermDecodeAndEncodeAgree := by
  unfold Obligations.TermDecodeAndEncodeAgree
  refine ⟨decodeTerm_iff_encodeTerm, encodeTerm_isSome, fun t h => ?_⟩
  obtain ⟨i, rfl⟩ := exists_term_of_encodable h
  exact term_supported i

end Sys2Proof

namespace Sys2Proof.Machine

/-! ## The decoder block (30_encoding.md section 7) -/

/-- On an instruction's byte the decoder block drives that instruction's term. -/
@[simp] theorem decoderBlock_encode (i : Instr) :
    decoderBlock (encode i) = { valid := true, kind := i.term.kind, target := i.term.tag } := by
  cases i <;> rfl

theorem decoderBlock_of_some {b : Byte} {i : Instr} (h : decodeByte b = some i) :
    decoderBlock b = { valid := true, kind := i.term.kind, target := i.term.tag } := by
  rw [← encode_eq_of_decodeByte h, decoderBlock_encode]

/-- On a byte that does not decode the decoder block drives `valid` 0 and the codes 0. -/
theorem decoderBlock_of_none {b : Byte} (h : decodeByte b = none) :
    decoderBlock b = { valid := false, kind := .nop, target := .a } := by
  rw [decodeByte_eq_none_iff] at h
  unfold decoderBlock
  split
  · exact absurd rfl (h .nop)
  · exact absurd rfl (h .incBC)
  · exact absurd rfl (h .incB)
  · exact absurd rfl (h .incDE)
  · exact absurd rfl (h .halt)
  · exact absurd rfl (h .addAC)
  · rfl

/-- Settles O2: the block drives the term of the byte's instruction, or zeros where there is none. -/
theorem decoderBlockDrivesItsTable : Obligations.DecoderBlockDrivesItsTable := by
  unfold Obligations.DecoderBlockDrivesItsTable
  refine ⟨fun b => ?_, fun b i h => ?_, fun b h => ?_, rfl, rfl, rfl, rfl, rfl, rfl, rfl, rfl, rfl, rfl⟩
  · cases h : decodeByte b with
    | none => rw [decoderBlock_of_none h]; rfl
    | some i => rw [decoderBlock_of_some h]; rfl
  · rw [decoderBlock_of_some h]
    exact ⟨rfl, rfl⟩
  · rw [decoderBlock_of_none h]
    exact ⟨rfl, rfl⟩

end Sys2Proof.Machine

/-! What an instruction, a term and a step change, said once each, and the invariants of the state and the session. -/

namespace Sys2Proof.Machine

/-! ## Instructions are their terms (40_engine.md section 2) -/

/-- Running an instruction is executing its term. -/
theorem exec_eq_execTerm (i : Instr) (s : State) : exec i s = execTerm i.term s := by
  cases i <;> rfl

/-- Settles O37: the two dispatches answer alike, instruction by instruction. -/
theorem instructionsRunAsTheirTerms : Obligations.InstructionsRunAsTheirTerms := by
  unfold Obligations.InstructionsRunAsTheirTerms
  exact exec_eq_execTerm

/-! ## Every execution answers a next state -/

theorem execTerm_completes (i : Term) (s : State) : ∃ t, execTerm i s = .next t := by
  cases i with
  | nop => exact ⟨_, rfl⟩
  | halt => exact ⟨_, rfl⟩
  | add t => cases t <;> exact ⟨_, rfl⟩
  | inc t => cases t <;> exact ⟨_, rfl⟩

theorem exec_completes (i : Instr) (s : State) : ∃ t, exec i s = .next t := by
  rw [exec_eq_execTerm]
  exact execTerm_completes i.term s

/-! ## The three cases of a step, forwards (40_engine.md R79, R80) -/

theorem step_of_not_running {s : State} (h : s.status ≠ .running) : step s = .next s := by
  cases hs : s.status with
  | running => exact absurd hs h
  | halted => simp [step, hs, stoppedStep]
  | faulted => simp [step, hs, stoppedStep]

theorem stepTerm_of_not_running {s : State} (i : Term) (h : s.status ≠ .running) : stepTerm i s = .next s := by
  cases hs : s.status with
  | running => exact absurd hs h
  | halted => simp [stepTerm, hs, stoppedStep]
  | faulted => simp [stepTerm, hs, stoppedStep]

theorem stepTerm_of_running {s : State} (i : Term) (h : s.status = .running) : stepTerm i s = execTerm i s := by
  simp [stepTerm, h]

theorem step_of_decodes {s : State} {i : Instr} (hs : s.status = .running) (hi : decodeByte s.fetch = some i) :
    step s = exec i s := by
  simp [step, hs, hi]

theorem step_of_undecodable {s : State} (hs : s.status = .running) (hn : decodeByte s.fetch = none) :
    step s = .next (s.takeFault (.unknownOpcode s.pc s.fetch)) := by
  simp [step, hs, hn, raiseUnknownOpcode]

theorem step_completes (s : State) : ∃ t, step s = .next t := by
  by_cases hs : s.status = .running
  · cases hd : decodeByte s.fetch with
    | none => exact ⟨_, step_of_undecodable hs hd⟩
    | some i =>
      rw [step_of_decodes hs hd]
      exact exec_completes i s
  · exact ⟨s, step_of_not_running hs⟩

/-- Settles O18: the step's two cases on a RUNNING core. -/
theorem stepRunsTheDecodedInstruction : Obligations.StepRunsTheDecodedInstruction := by
  unfold Obligations.StepRunsTheDecodedInstruction
  exact ⟨fun _ _ => step_of_decodes, fun _ => step_of_undecodable⟩

/-- Settles O21: the step's case in a terminal status. -/
theorem terminalStatusTakesNoStep : Obligations.TerminalStatusTakesNoStep := by
  unfold Obligations.TerminalStatusTakesNoStep
  exact ⟨fun _ => step_of_not_running, fun _ i => stepTerm_of_not_running i⟩

/-! ## What an execution leaves unchanged, and the pc it commits -/

/-- No term changes a byte of memory (20_memory.md section 5). -/
theorem execTerm_mem {i : Term} {s t : State} (h : execTerm i s = .next t) : t.mem = s.mem := by
  obtain ⟨-, rfl⟩ | ⟨-, rfl⟩ | ⟨-, rfl⟩ | ⟨r, -, rfl⟩ | ⟨r, -, rfl⟩ | ⟨p, -, rfl⟩ := execTerm_cases h <;> rfl

/-- A supported term raises nothing. -/
theorem execTerm_fault {i : Term} {s t : State} (hi : i.supported = true) (h : execTerm i s = .next t) :
    t.fault = s.fault := by
  obtain ⟨hraise, -⟩ | ⟨-, rfl⟩ | ⟨-, rfl⟩ | ⟨r, -, rfl⟩ | ⟨r, -, rfl⟩ | ⟨p, -, rfl⟩ := execTerm_cases h
  · simp [hi] at hraise
  all_goals rfl

/-- A term that is not supported raises UnsupportedOperand, whatever else the state holds. -/
theorem execTerm_of_unsupported {i : Term} (hi : i.supported = false) (s : State) :
    execTerm i s = .next (s.takeFault (.unsupportedOperand i.kind i.tag s.pc)) := by
  obtain ⟨t, ht⟩ := execTerm_completes i s
  obtain ⟨-, rfl⟩ | ⟨rfl, -⟩ | ⟨rfl, -⟩ | ⟨r, rfl, -⟩ | ⟨r, rfl, -⟩ | ⟨p, rfl, -⟩ := execTerm_cases ht
  · exact ht
  all_goals cases hi

theorem exec_mem {i : Instr} {s t : State} (h : exec i s = .next t) : t.mem = s.mem :=
  execTerm_mem (exec_eq_execTerm i s ▸ h)

theorem exec_fault {i : Instr} {s t : State} (h : exec i s = .next t) : t.fault = s.fault :=
  execTerm_fault (term_supported i) (exec_eq_execTerm i s ▸ h)

/-- HALT zeroes pc, every other instruction advances it (10_state.md section 4, D3). -/
theorem exec_pc {i : Instr} {s t : State} (h : exec i s = .next t) :
    t.pc = if i = .halt then 0x0000#16 else s.pc + 0x0001#16 := by
  obtain ⟨rfl, rfl⟩ | ⟨rfl, rfl⟩ | ⟨rfl, rfl⟩ | ⟨rfl, rfl⟩ | ⟨rfl, rfl⟩ | ⟨rfl, rfl⟩ := exec_cases h <;> rfl

/-- After an instruction on a RUNNING core the status is HALTED or RUNNING, as the instruction is HALT or not. -/
theorem exec_status {i : Instr} {s t : State} (hs : s.status = .running) (h : exec i s = .next t) :
    t.status = if i = .halt then .halted else .running := by
  obtain ⟨hhalted, hkind⟩ := s.running_iff.mp hs
  have hfault : t.fault.kind = .none := by rw [exec_fault h, hkind]
  split
  · rename_i hi
    exact t.halted_iff.mpr ⟨(exec_halted_iff h).mpr (.inr hi), hfault⟩
  · rename_i hi
    have hrun : t.halted = false := by simp [← Bool.not_eq_true, exec_halted_iff h, hhalted, hi]
    exact t.running_iff.mpr ⟨hrun, hfault⟩

/-- No step changes a byte of memory. -/
theorem step_mem {s t : State} (h : step s = .next t) : t.mem = s.mem := by
  obtain ⟨-, rfl⟩ | ⟨-, -, rfl⟩ | ⟨-, i, -, hexec⟩ := step_cases h
  · rfl
  · rfl
  · exact exec_mem hexec

theorem faulted_takeFault_unknownOpcode (s : State) (a : Word) (b : Byte) :
    (s.takeFault (.unknownOpcode a b)).status = .faulted := (State.faulted_iff _).mpr nofun

theorem faulted_takeFault_unsupportedOperand (s : State) (k : Kind) (x : TargetTag) (a : Word) :
    (s.takeFault (.unsupportedOperand k x a)).status = .faulted := (State.faulted_iff _).mpr nofun

/-! ## The state's invariant -/

/-- With memory canonical and no fault, all that is left of the invariant is where a halted core stands. -/
theorem State.Inv.of_clear {s : State} (hmem : s.mem.wf = true) (hfault : s.fault = .clear)
    (hhalt : s.halted = true → s.pc = 0x0000#16) : s.Inv :=
  ⟨hmem, fun h => ⟨hhalt h, hfault⟩, .inl hfault⟩

/-- A RUNNING core that meets the invariant has a clear record: the other two kinds are faults. -/
theorem State.Inv.fault_clear {s : State} (h : s.Inv) (hs : s.status = .running) : s.fault = .clear := by
  obtain ⟨-, hkind⟩ := s.running_iff.mp hs
  obtain hclear | ⟨hraise, -⟩ | ⟨t, -, hraise⟩ := h.faultMatches
  · exact hclear
  all_goals rw [hraise] at hkind; cases hkind

/-- A RUNNING core takes a fault into the invariant: it is not halted and its memory is as before. -/
theorem State.Inv.takeFault {s : State} {r : FaultRecord} (h : s.Inv) (hs : s.status = .running)
    (hr : (r = .unknownOpcode s.pc s.fetch ∧ decodeByte s.fetch = none) ∨
      ∃ t : Term, t.supported = false ∧ r = .unsupportedOperand t.kind t.tag s.pc) : (s.takeFault r).Inv := by
  obtain ⟨hhalted, -⟩ := s.running_iff.mp hs
  refine ⟨h.memWf, fun hh => ?_, .inr hr⟩
  rw [State.takeFault_halted, hhalted] at hh
  cases hh

/-- Executing any term on a RUNNING core keeps the invariant. -/
theorem State.Inv.execTerm {i : Term} {s t : State} (h : s.Inv) (hs : s.status = .running)
    (hexec : execTerm i s = .next t) : t.Inv := by
  obtain ⟨hhalted, -⟩ := s.running_iff.mp hs
  have hclear := h.fault_clear hs
  obtain ⟨hi, rfl⟩ | ⟨-, rfl⟩ | ⟨-, rfl⟩ | ⟨r, -, rfl⟩ | ⟨r, -, rfl⟩ | ⟨p, -, rfl⟩ := execTerm_cases hexec
  · exact h.takeFault hs (.inr ⟨i, hi, rfl⟩)
  · exact .of_clear h.memWf hclear fun _ => rfl
  all_goals exact .of_clear h.memWf hclear fun hh => absurd hh (by simp [hhalted])

theorem State.Inv.step {s t : State} (h : s.Inv) (hstep : step s = .next t) : t.Inv := by
  obtain ⟨-, rfl⟩ | ⟨hs, hnone, rfl⟩ | ⟨hs, i, -, hexec⟩ := step_cases hstep
  · exact h
  · exact h.takeFault hs (.inl ⟨rfl, hnone⟩)
  · rw [exec_eq_execTerm] at hexec
    exact h.execTerm hs hexec

theorem State.Inv.stepTerm {i : Term} {s t : State} (h : s.Inv) (hstep : stepTerm i s = .next t) : t.Inv := by
  by_cases hs : s.status = .running
  · rw [stepTerm_of_running i hs] at hstep
    exact h.execTerm hs hstep
  · rw [stepTerm_of_not_running i hs] at hstep
    cases hstep
    exact h

/-- Settles O24: a RUNNING core raises with the record the invariant asks for, halts at pc zero, or goes on
with its clear record; any other core stays as it is. -/
theorem stepKeepsTheInvariant : Obligations.StepKeepsTheInvariant := by
  unfold Obligations.StepKeepsTheInvariant
  exact ⟨fun _ _ => State.Inv.step, fun _ _ _ => State.Inv.stepTerm⟩

/-! ## Runs of steps -/

theorem stepsTo_unique {n : Nat} {s t u : State} (h : StepsTo n s t) (h' : StepsTo n s u) : t = u :=
  Host.Outcome.next.inj (h.symm.trans h')

/-- A run of one more step, its last step named. -/
theorem stepsTo_succ_last {n : Nat} {s t : State} :
    StepsTo (n + 1) s t ↔ ∃ u, StepsTo n s u ∧ step u = .next t := by
  induction n generalizing s with
  | zero => simp [stepsTo_succ]
  | succ n ih =>
    rw [stepsTo_succ]
    constructor
    · rintro ⟨v, hv, hrest⟩
      obtain ⟨u, hu, hlast⟩ := ih.mp hrest
      exact ⟨u, stepsTo_succ.mpr ⟨v, hv, hu⟩, hlast⟩
    · rintro ⟨u, hu, hlast⟩
      obtain ⟨v, hv, hrest⟩ := stepsTo_succ.mp hu
      exact ⟨v, hv, ih.mpr ⟨u, hrest, hlast⟩⟩

/-- A terminal state stays, however many steps are asked for. -/
theorem stepsTo_of_terminal {n k : Nat} {s t : State} (h : StepsTo n s t) (ht : t.status ≠ .running) (hnk : n ≤ k) :
    StepsTo k s t := by
  induction k, hnk using Nat.le_induction with
  | base => exact h
  | succ k _ ih => exact stepsTo_succ_last.mpr ⟨t, ih, step_of_not_running ht⟩

/-! ## The run under fuel (40_engine.md section 5) -/

theorem runFuel_of_not_running {s : State} (k : Nat) (h : s.status ≠ .running) : runFuel k s = some s := by
  cases k <;> simp [runFuel, h]

theorem runFuel_succ_of_running {s u : State} (k : Nat) (h : s.status = .running) (hu : step s = .next u) :
    runFuel (k + 1) s = runFuel k u := by
  simp [runFuel, h, hu]

/-- The run under `k` steps of fuel answers the state after `k` steps, if it is terminal: an earlier terminal state
stays until then. -/
theorem runFuel_eq_some_iff {k : Nat} {s t : State} :
    runFuel k s = some t ↔ StepsTo k s t ∧ t.status ≠ .running := by
  induction k generalizing s with
  | zero =>
    rw [stepsTo_zero]
    constructor
    · intro h
      obtain ⟨hs, rfl⟩ : ¬s.status = .running ∧ s = t := by simpa [runFuel] using h
      exact ⟨rfl, hs⟩
    · rintro ⟨rfl, hs⟩
      exact runFuel_of_not_running 0 hs
  | succ k ih =>
    by_cases hs : s.status = .running
    · obtain ⟨u, hu⟩ := step_completes s
      rw [runFuel_succ_of_running k hs hu, ih]
      simp [stepsTo_succ, hu]
    · have hstay : StepsTo (k + 1) s s := stepsTo_of_terminal (stepsTo_zero.mpr rfl) hs (Nat.zero_le _)
      rw [runFuel_of_not_running _ hs, Option.some.injEq]
      constructor
      · rintro rfl
        exact ⟨hstay, hs⟩
      · exact fun h => stepsTo_unique hstay h.1

/-! ## The host's writes and requests -/

@[simp] theorem hostWrite_pc (w : HostWrite) (s : State) : (hostWrite w s).pc = s.pc := by cases w <;> rfl
@[simp] theorem hostWrite_halted (w : HostWrite) (s : State) : (hostWrite w s).halted = s.halted := by
  cases w <;> rfl
@[simp] theorem hostWrite_fault (w : HostWrite) (s : State) : (hostWrite w s).fault = s.fault := by cases w <;> rfl

/-- A host write touches nothing the status depends on. -/
@[simp] theorem hostWrite_status (w : HostWrite) (s : State) : (hostWrite w s).status = s.status :=
  State.status_congr _ _ (hostWrite_halted w s) (hostWrite_fault w s)

theorem hostWrite_wf (w : HostWrite) {s : State} (h : s.mem.wf = true) : (hostWrite w s).mem.wf = true := by
  cases w with
  | mem a v => exact Memory.write_wf h a v
  | reg r v => exact h
  | flags f => exact h
  | flagsByte b => exact h

/-- A request answers with the state of one step, which is the state itself in a terminal status. -/
theorem step_of_stepRequest {s t : State} {r : HostReply} (h : stepRequest s = some (t, r)) : step s = .next t := by
  by_cases hs : s.status = .running
  · obtain ⟨u, hu⟩ := step_completes s
    simp only [stepRequest, hs, hu, if_true, Option.some.injEq, Prod.mk.injEq] at h
    rw [hu, h.1]
  · simp only [stepRequest, hs, if_false, Option.some.injEq, Prod.mk.injEq] at h
    rw [step_of_not_running hs, h.1]

/-- A run's reply and state are those of the run under fuel. -/
theorem runRequest_eq_some_iff {k : Nat} {s t : State} {r : HostReply} :
    runRequest k s = some (t, r) ↔ runFuel k s = some t ∧ statusReply t = r := by
  unfold runRequest
  cases h : runFuel k s with
  | none => simp
  | some u =>
    simp only [Option.some.injEq, Prod.mk.injEq]
    constructor
    · rintro ⟨rfl, hr⟩
      exact ⟨rfl, hr⟩
    · rintro ⟨rfl, hr⟩
      exact ⟨rfl, hr⟩

/-! ## The session's actions (40_engine.md section 6) -/

/-- Everything an action of the host can do to the session. -/
theorem act_cases {x y : Session} {a : HostAction} {r : HostReply} (h : x.act a = some (y, r)) :
    (∃ w, a = .write w ∧ x.started = false ∧ y = { x with core := hostWrite w x.core } ∧ r = .done) ∨
    (a = .step ∧ stepRequest x.core = some (y.core, r) ∧ y.started = true) ∨
    (∃ k, a = .run k ∧ runRequest k x.core = some (y.core, r) ∧ y.started = true) ∨
    (∃ q, a = .read q ∧ y = x ∧ r = .value (hostRead q x.core)) := by
  cases a with
  | write w =>
    cases hx : x.started with
    | true => simp [Session.act, hx] at h
    | false =>
      simp only [Session.act, hx, Bool.false_eq_true, if_false, Option.some.injEq, Prod.mk.injEq] at h
      obtain ⟨rfl, rfl⟩ := h
      exact .inl ⟨w, rfl, rfl, by rw [← hx], rfl⟩
  | step =>
    obtain ⟨⟨t, r'⟩, hreq, heq⟩ := Option.map_eq_some_iff.mp h
    cases heq
    exact .inr (.inl ⟨rfl, hreq, rfl⟩)
  | run k =>
    obtain ⟨⟨t, r'⟩, hreq, heq⟩ := Option.map_eq_some_iff.mp h
    cases heq
    exact .inr (.inr (.inl ⟨k, rfl, hreq, rfl⟩))
  | read q =>
    cases h
    exact .inr (.inr (.inr ⟨q, rfl, rfl, rfl⟩))

/-- Once a request has been made only the core's invariant is left to ask. -/
theorem Session.Inv.of_started {x : Session} (hcore : x.core.Inv) (hx : x.started = true) : x.Inv := by
  refine ⟨hcore, fun h => ?_⟩
  rw [hx] at h
  cases h

/-- A host write to a core at its start keeps the invariant: it is RUNNING, so its record is clear. -/
theorem State.Inv.hostWrite {s : State} (w : HostWrite) (h : s.Inv) (hs : s.status = .running) :
    (hostWrite w s).Inv := by
  obtain ⟨hhalted, -⟩ := s.running_iff.mp hs
  refine .of_clear (hostWrite_wf w h.memWf) ?_ fun hh => ?_
  · rw [hostWrite_fault, h.fault_clear hs]
  · rw [hostWrite_halted, hhalted] at hh
    cases hh

/-- Every single action keeps the session's invariant. -/
theorem Session.Inv.act {x y : Session} {a : HostAction} {r : HostReply} (hx : x.Inv) (h : x.act a = some (y, r)) :
    y.Inv := by
  obtain ⟨w, -, hfresh, rfl, -⟩ | ⟨-, hreq, hy⟩ | ⟨k, -, hreq, hy⟩ | ⟨q, -, rfl, -⟩ := act_cases h
  · obtain ⟨hrun, hpc⟩ := hx.fresh hfresh
    exact ⟨hx.core.hostWrite w hrun, fun _ => ⟨by rw [hostWrite_status, hrun], by rw [hostWrite_pc, hpc]⟩⟩
  · exact .of_started (hx.core.step (step_of_stepRequest hreq)) hy
  · obtain ⟨hrun, -⟩ := runRequest_eq_some_iff.mp hreq
    exact .of_started (stepsTo_keeps (fun _ _ => State.Inv.step) k _ _ hx.core (runFuel_eq_some_iff.mp hrun).1) hy
  · exact hx

/-- A list of actions goes on from the session its first action gives. -/
theorem acts_cons_eq_some_iff {x z : Session} {a : HostAction} {as : List HostAction} :
    x.acts (a :: as) = some z ↔ ∃ y r, x.act a = some (y, r) ∧ y.acts as = some z := by
  cases h : x.act a with
  | none => simp [Session.acts, h]
  | some p =>
    obtain ⟨y, r⟩ := p
    simp only [Session.acts, h, Option.some.injEq, Prod.mk.injEq]
    constructor
    · exact fun hz => ⟨y, r, ⟨rfl, rfl⟩, hz⟩
    · rintro ⟨_, _, ⟨rfl, rfl⟩, hz⟩
      exact hz

theorem Session.Inv.acts {x y : Session} {as : List HostAction} (hx : x.Inv) (h : x.acts as = some y) : y.Inv := by
  induction as generalizing x with
  | nil =>
    cases h
    exact hx
  | cons a as ih =>
    obtain ⟨z, r, hz, hrest⟩ := acts_cons_eq_some_iff.mp h
    exact ih (hx.act hz) hrest

/-- Settles O25: every single action keeps the session's invariant, so a list of them does. -/
theorem sessionKeepsTheInvariant : Obligations.SessionKeepsTheInvariant := by
  unfold Obligations.SessionKeepsTheInvariant
  exact fun _ _ _ => Session.Inv.acts

/-- Settles O7: at reset memory lists nothing, nothing is halted and the record is clear. -/
theorem resetMeetsTheInvariants : Obligations.ResetMeetsTheInvariants := by
  unfold Obligations.ResetMeetsTheInvariants
  have hcore : State.reset.Inv := .of_clear rfl rfl fun _ => rfl
  exact ⟨hcore, hcore, fun _ => ⟨rfl, rfl⟩⟩

end Sys2Proof.Machine

/-! Memory as data, the assembled program, and the host's writes, reads and requests (40_engine.md section 6). -/

namespace Sys2Proof.Machine

/-! ## Canonical memories (20_memory.md section 1) -/

/-- The first listed address of a canonical memory is one that no canonical memory starting beyond it reads alike. -/
theorem Memory.readNat_head_ne {lo k : Nat} {v : Byte} {m m' : Memory} (h : Memory.wfFrom lo ((k, v) :: m) = true)
    (h' : Memory.wfFrom (k + 1) m' = true) : Memory.readNat ((k, v) :: m) k ≠ m'.readNat k := by
  obtain ⟨-, -, hv, -⟩ := (Memory.wfFrom_cons lo k v m).mp h
  rw [Memory.readNat_below h' (Nat.lt_succ_self k)]
  simpa [Memory.readNat] using hv

/-- An address other than the first listed one is read in the rest of the list. -/
theorem Memory.readNat_cons_other {k a : Nat} (v : Byte) (m : Memory) (ha : a ≠ k) :
    Memory.readNat ((k, v) :: m) a = m.readNat a := by
  simp [Memory.readNat, ha.symm]

/-- Canonical memories that read alike are the same list: their heads stand at the same address, or the lower
head is read in one only. -/
theorem Memory.eq_of_readNat {lo lo' : Nat} {m m' : Memory} (h : Memory.wfFrom lo m = true)
    (h' : Memory.wfFrom lo' m' = true) (hread : ∀ a, a < Config.memSize → m.readNat a = m'.readNat a) : m = m' := by
  induction m generalizing lo lo' m' with
  | nil =>
    cases m' with
    | nil => rfl
    | cons c' m' =>
      obtain ⟨k', v'⟩ := c'
      obtain ⟨-, hk', -, -⟩ := (Memory.wfFrom_cons lo' k' v' m').mp h'
      exact absurd (hread k' hk').symm (Memory.readNat_head_ne h' rfl)
  | cons c m ih =>
    obtain ⟨k, v⟩ := c
    obtain ⟨-, hk, hv, hm⟩ := (Memory.wfFrom_cons lo k v m).mp h
    cases m' with
    | nil => exact absurd (hread k hk) (Memory.readNat_head_ne h rfl)
    | cons c' m' =>
      obtain ⟨k', v'⟩ := c'
      obtain ⟨-, hk', hv', hm'⟩ := (Memory.wfFrom_cons lo' k' v' m').mp h'
      rcases Nat.lt_trichotomy k k' with hlt | rfl | hgt
      · have hbeyond : Memory.wfFrom (k + 1) ((k', v') :: m') = true :=
          (Memory.wfFrom_cons _ _ _ _).mpr ⟨hlt, hk', hv', hm'⟩
        exact absurd (hread k hk) (Memory.readNat_head_ne h hbeyond)
      · have hhead : v = v' := by simpa [Memory.readNat] using hread k hk
        have htail : m = m' := ih hm hm' fun a ha => by
          by_cases hak : a = k
          · rw [hak, Memory.readNat_below hm (Nat.lt_succ_self k), Memory.readNat_below hm' (Nat.lt_succ_self k)]
          · rw [← Memory.readNat_cons_other v m hak, hread a ha, Memory.readNat_cons_other v' m' hak]
        rw [hhead, htail]
      · have hbeyond : Memory.wfFrom (k' + 1) ((k, v) :: m) = true :=
          (Memory.wfFrom_cons _ _ _ _).mpr ⟨hgt, hk, hv, hm⟩
        exact absurd (hread k' hk').symm (Memory.readNat_head_ne h' hbeyond)

/-- Canonical memories that read alike at every address are equal. -/
theorem Memory.eq_of_read {m m' : Memory} (h : m.wf = true) (h' : m'.wf = true) (hread : ∀ a : Word, m.read a = m'.read a) :
    m = m' := by
  refine Memory.eq_of_readNat h h' fun a ha => ?_
  have hword : (BitVec.ofNat 16 a).toNat = a := Nat.mod_eq_of_lt ha
  have hra := hread (BitVec.ofNat 16 a)
  rwa [Memory.read, Memory.read, hword] at hra

/-- Settles O12: the heads of two such lists agree, and then the rests read alike. -/
theorem canonicalMemoriesThatReadAlikeAreEqual : Obligations.CanonicalMemoriesThatReadAlikeAreEqual := by
  unfold Obligations.CanonicalMemoriesThatReadAlikeAreEqual
  exact fun _ _ => Memory.eq_of_read

/-- Writes to two addresses commute: both orders give a canonical memory that reads alike. -/
theorem Memory.write_comm {m : Memory} (h : m.wf = true) {a b : Word} (v w : Byte) (hab : a ≠ b) :
    (m.write a v).write b w = (m.write b w).write a v := by
  have ha := Memory.write_wf h a v
  have hb := Memory.write_wf h b w
  refine Memory.eq_of_read (Memory.write_wf ha b w) (Memory.write_wf hb a v) fun c => ?_
  rw [Memory.read_write ha, Memory.read_write h, Memory.read_write hb, Memory.read_write h]
  by_cases hcb : c = b
  · simp [hcb, hab.symm]
  · simp [hcb]

/-- Of two writes to one address the last stands. -/
theorem Memory.write_write_same {m : Memory} (h : m.wf = true) (a : Word) (v w : Byte) :
    (m.write a v).write a w = m.write a w := by
  have ha := Memory.write_wf h a v
  refine Memory.eq_of_read (Memory.write_wf ha a w) (Memory.write_wf h a w) fun c => ?_
  rw [Memory.read_write ha, Memory.read_write h, Memory.read_write h]
  by_cases hca : c = a
  · simp [hca]
  · simp [hca]

/-! ## The assembled program (30_encoding.md section 6) -/

/-- What a host has placed after the writes of a program's instructions: at the `k`-th address from the start
the `k`-th instruction's byte, elsewhere what was there. No later byte overwrites an earlier one, for a program
of at most 65536 bytes does not wrap onto itself. -/
theorem read_hostWrites_instructions (is : List Instr) (hlen : is.length ≤ 65536) (s : State) (hwf : s.mem.wf = true)
    (a b : Word) : (hostWrites (assembleFrom a (is.map .ins)) s).mem.read b =
      (is[(b - a).toNat]?.map encode).getD (s.mem.read b) := by
  induction is generalizing a s with
  | nil => rfl
  | cons i is ih =>
    have hlen' : is.length ≤ 65535 := Nat.le_of_succ_le_succ hlen
    have hcons : hostWrites (assembleFrom a ((i :: is).map .ins)) s =
        hostWrites (assembleFrom (a + 0x0001#16) (is.map .ins)) (s.writeMem a (encode i)) := rfl
    rw [hcons, ih (by omega) (s.writeMem a (encode i)) (Memory.write_wf hwf a _), State.writeMem_mem,
      Memory.read_write hwf]
    by_cases hba : b = a
    · have hlast : (b - (a + 0x0001#16)).toNat = 65535 := by subst hba; bv_omega
      have hfirst : (b - a).toNat = 0 := by subst hba; bv_omega
      rw [hlast, hfirst, List.getElem?_eq_none hlen']
      simp [hba]
    · have hnext : (b - a).toNat = (b - (a + 0x0001#16)).toNat + 1 := by bv_omega
      rw [hnext, List.getElem?_cons_succ]
      simp [hba]

theorem hostWrites_wf (ws : List HostWrite) {s : State} (h : s.mem.wf = true) : (hostWrites ws s).mem.wf = true := by
  induction ws generalizing s with
  | nil => exact h
  | cons w ws ih => exact ih (hostWrite_wf w h)

/-- The writes of a program touch memory alone. -/
theorem hostWrites_assembleFrom_frame (a : Word) (lines : List AsmLine) (s : State) :
    { hostWrites (assembleFrom a lines) s with mem := s.mem } = s := by
  induction lines generalizing a s with
  | nil => rfl
  | cons line lines ih =>
    cases line with
    | label n => exact ih a s
    | org b => exact ih b s
    | byte v => exact congrArg (fun t : State => { t with mem := s.mem }) (ih (a + 0x0001#16) (s.writeMem a v))
    | ins i => exact congrArg (fun t : State => { t with mem := s.mem }) (ih (a + 0x0001#16) (s.writeMem a (encode i)))

/-- Settles O5: the byte read at each address is that of the program's instruction placed there, or the old one. -/
theorem assembledProgramIsWhatMemoryHolds : Obligations.AssembledProgramIsWhatMemoryHolds := by
  unfold Obligations.AssembledProgramIsWhatMemoryHolds
  intro s a is hwf hlen
  have horg : assemble (.org a :: is.map .ins) = assembleFrom a (is.map .ins) := rfl
  rw [horg]
  refine ⟨fun k i hi => ?_, fun b hb => ?_, hostWrites_wf _ hwf, hostWrites_assembleFrom_frame a _ s⟩
  · have hk : k < is.length := (List.getElem?_eq_some_iff.mp hi).1
    have hindex : (a + BitVec.ofNat 16 k - a).toNat = k := by
      rw [add_sub_cancel_left, BitVec.toNat_ofNat, Nat.mod_eq_of_lt (by omega)]
    rw [read_hostWrites_instructions is hlen s hwf, hindex, hi]
    exact decodeByte_encode i
  · rw [read_hostWrites_instructions is hlen s hwf, List.getElem?_eq_none hb]
    rfl

/-! ## Host writes (70_reset_and_hazards.md section 2) -/

theorem Regs.set_comm (x : Regs) {r r' : Reg8} (v w : Byte) (h : r ≠ r') :
    (x.set r v).set r' w = (x.set r' w).set r v := by
  refine Regs.ext_get _ _ fun q => ?_
  rw [Regs.get_set, Regs.get_set, Regs.get_set, Regs.get_set]
  by_cases hq : q = r'
  · simp [hq, h.symm]
  · simp [hq]

@[simp] theorem Regs.set_set_same (x : Regs) (r : Reg8) (v w : Byte) : (x.set r v).set r w = x.set r w := by
  cases r <;> rfl

/-- Writes to two places commute: within memory or the register file by its own law, across them at once. -/
theorem hostWrite_comm {s : State} {w w' : HostWrite} (hwf : s.mem.wf = true) (h : hostLoc w ≠ hostLoc w') :
    hostWrite w (hostWrite w' s) = hostWrite w' (hostWrite w s) := by
  cases w with
  | mem a v =>
    cases w' with
    | mem b v' =>
      have hab : b ≠ a := fun e => h (congrArg HostLoc.mem e.symm)
      exact congrArg (fun m => { s with mem := m }) (Memory.write_comm hwf v' v hab)
    | reg r v' => rfl
    | flags f => rfl
    | flagsByte b => rfl
  | reg r v =>
    cases w' with
    | reg r' v' =>
      have hr : r' ≠ r := fun e => h (congrArg HostLoc.reg e.symm)
      exact congrArg (fun x => { s with regs := x }) (Regs.set_comm s.regs v' v hr)
    | mem a v' => rfl
    | flags f => rfl
    | flagsByte b => rfl
  | flags f =>
    cases w' with
    | mem a v => rfl
    | reg r v => rfl
    | flags f' => exact absurd rfl h
    | flagsByte b' => exact absurd rfl h
  | flagsByte b =>
    cases w' with
    | mem a v => rfl
    | reg r v => rfl
    | flags f' => exact absurd rfl h
    | flagsByte b' => exact absurd rfl h

/-- Of two writes to one place the last stands. -/
theorem hostWrite_hostWrite_same {s : State} {w w' : HostWrite} (hwf : s.mem.wf = true) (h : hostLoc w = hostLoc w') :
    hostWrite w' (hostWrite w s) = hostWrite w' s := by
  cases w with
  | mem a v =>
    cases w' with
    | mem b v' =>
      cases h
      exact congrArg (fun m => { s with mem := m }) (Memory.write_write_same hwf a v v')
    | _ => cases h
  | reg r v =>
    cases w' with
    | reg r' v' =>
      cases h
      exact congrArg (fun x => { s with regs := x }) (Regs.set_set_same s.regs r v v')
    | _ => cases h
  | flags f =>
    cases w' with
    | flags f' => rfl
    | flagsByte b' => rfl
    | _ => cases h
  | flagsByte b =>
    cases w' with
    | flags f' => rfl
    | flagsByte b' => rfl
    | _ => cases h

/-- Settles O13: memory and the register file have both laws, the flags are one place, and the three are apart. -/
theorem hostWritesCommuteAndTheLastStands : Obligations.HostWritesCommuteAndTheLastStands := by
  unfold Obligations.HostWritesCommuteAndTheLastStands
  exact ⟨fun _ _ _ => hostWrite_comm, fun _ _ _ => hostWrite_hostWrite_same⟩

/-! ## The byte form of the flags, round trip (10_state.md section 3) -/

@[simp] theorem Flags.fromByte_toByte (f : Flags) : Flags.fromByte f.toByte = f := by
  obtain ⟨hz, hn, hh, hc⟩ := f.toByte_high
  rw [Flags.fromByte, hz, hn, hh, hc]

/-- Of the byte form and its source the high nibbles agree bit by bit, and the low nibble is zero. -/
theorem Flags.toByte_fromByte (b : Byte) : (Flags.fromByte b).toByte = b &&& 0xF0#8 := by
  obtain ⟨h7, h6, h5, h4⟩ := (Flags.fromByte b).toByte_high
  apply BitVec.eq_of_getLsbD_eq
  intro i hi
  by_cases hlow : i < 4
  · rw [Flags.toByte_low _ hlow, BitVec.getLsbD_and]
    have hmask : ∀ j < 4, (0xF0#8).getLsbD j = false := by decide
    rw [hmask i hlow, Bool.and_false]
  · rw [BitVec.getLsbD_and]
    obtain rfl | rfl | rfl | rfl : i = 4 ∨ i = 5 ∨ i = 6 ∨ i = 7 := by omega
    · rw [h4]; simp [Flags.fromByte]
    · rw [h5]; simp [Flags.fromByte]
    · rw [h6]; simp [Flags.fromByte]
    · rw [h7]; simp [Flags.fromByte]

/-- The byte form is its own high nibble. -/
theorem Flags.toByte_lowNibble (f : Flags) : f.toByte &&& 0x0F#8 = 0x00#8 := by
  have hhigh : f.toByte = f.toByte &&& 0xF0#8 := by
    rw [← Flags.toByte_fromByte, Flags.fromByte_toByte]
  rw [hhigh, BitVec.and_assoc]
  exact BitVec.and_zero

/-- Settles O9: each flag goes to its bit and back, and the low nibble is lost. -/
theorem flagsByteFormRoundTrips : Obligations.FlagsByteFormRoundTrips := by
  unfold Obligations.FlagsByteFormRoundTrips
  exact ⟨fun f => ⟨f.fromByte_toByte, f.toByte_lowNibble⟩, Flags.toByte_fromByte⟩

/-! ## The session's writes, reads and step requests (40_engine.md section 6) -/

theorem act_write_of_started {x : Session} (w : HostWrite) (h : x.started = true) : x.act (.write w) = none := by
  simp [Session.act, h]

theorem act_write_of_fresh {x : Session} (w : HostWrite) (h : x.started = false) :
    x.act (.write w) = some ({ x with core := hostWrite w x.core }, .done) := by
  simp [Session.act, h]

/-- A write that has its move does exactly the write's effect on the core. -/
theorem core_of_act_write {x y : Session} {w : HostWrite} {r : HostReply} (h : x.act (.write w) = some (y, r)) :
    y.core = hostWrite w x.core := by
  obtain ⟨_, heq, -, rfl, -⟩ | ⟨heq, -⟩ | ⟨_, heq, -⟩ | ⟨_, heq, -⟩ := act_cases h <;> cases heq
  rfl

/-- Settles O14: a write's move is its effect on the core, and there is none once a request was made. -/
theorem hostWritesOnlyBeforeTheFirstStep : Obligations.HostWritesOnlyBeforeTheFirstStep := by
  unfold Obligations.HostWritesOnlyBeforeTheFirstStep
  refine ⟨fun x w => act_write_of_started w, fun x w hx => ⟨_, act_write_of_fresh w hx, hx, hostWrite_pc w x.core,
    hostWrite_halted w x.core, hostWrite_fault w x.core⟩, fun x y a v hwf h => ?_, fun x y r v h => ?_,
    fun x y f h => core_of_act_write h, fun x y b h => ?_⟩
  · rw [core_of_act_write h]
    exact ⟨Memory.read_write_same hwf a v, fun b => Memory.read_write_other x.core.mem a b v, rfl⟩
  · rw [core_of_act_write h]
    exact ⟨x.core.readReg_writeReg_same r v, fun r' => x.core.readReg_writeReg_other v, rfl⟩
  · rw [core_of_act_write h]
    exact ⟨Flags.toByte_fromByte b, rfl⟩

/-- A read answers the value it asks for and leaves the session as it is. -/
theorem act_read (x : Session) (q : HostQuery) : x.act (.read q) = some (x, .value (hostRead q x.core)) := rfl

/-- Settles O15: a read answers from the core and gives the session back. -/
theorem hostReadsChangeNothing : Obligations.HostReadsChangeNothing := by
  unfold Obligations.HostReadsChangeNothing
  exact fun x => ⟨fun r => act_read x (.reg r), fun p => act_read x (.pair p), act_read x .flags,
    act_read x .flagsByte, act_read x .pc, act_read x .halted, act_read x .faultRecord, fun a => act_read x (.mem a)⟩

theorem act_step_of_running {x : Session} {t : State} (hx : x.core.status = .running) (ht : step x.core = .next t) :
    x.act .step = some ({ core := t, started := true }, steppedReply t) := by
  simp [Session.act, stepRequest, hx, ht]

theorem act_step_of_not_running {x : Session} (hx : x.core.status ≠ .running) :
    x.act .step = some ({ core := x.core, started := true }, statusReply x.core) := by
  simp [Session.act, stepRequest, hx]

theorem steppedReply_of_faulted {t : State} (h : t.status = .faulted) : steppedReply t = .faulted t.fault := by
  simp [steppedReply, h]

theorem steppedReply_of_not_faulted {t : State} (h : t.status ≠ .faulted) : steppedReply t = .success := by
  cases ht : t.status with
  | running => simp [steppedReply, ht]
  | halted => simp [steppedReply, ht]
  | faulted => exact absurd ht h

theorem statusReply_of_halted {t : State} (h : t.status = .halted) : statusReply t = .halted := by
  simp [statusReply, h]

theorem statusReply_of_faulted {t : State} (h : t.status = .faulted) : statusReply t = .faulted t.fault := by
  simp [statusReply, h]

/-- Settles O16: the reply is read off the status after the step, or off the status that allows none. -/
theorem stepRequestAnswersSuccessFaultOrStatus : Obligations.StepRequestAnswersSuccessFaultOrStatus := by
  unfold Obligations.StepRequestAnswersSuccessFaultOrStatus
  refine ⟨fun x hx => ?_, fun x hx => ?_, fun x hx => ?_⟩
  · obtain ⟨t, ht⟩ := step_completes x.core
    refine ⟨t, ht, ?_⟩
    rw [act_step_of_running hx ht]
    by_cases hf : t.status = .faulted
    · exact .inl ⟨hf, by rw [steppedReply_of_faulted hf]⟩
    · exact .inr ⟨hf, by rw [steppedReply_of_not_faulted hf]⟩
  · rw [act_step_of_not_running (by simp [hx]), statusReply_of_halted hx]
  · rw [act_step_of_not_running (by simp [hx]), statusReply_of_faulted hx]

/-! ## Several cores (60_exceptions.md section 5) -/

/-- An action on one of several cores is that core's own action, in its place. -/
theorem actOn_eq_some_iff {xs ys : List Session} {k : Nat} {a : HostAction} {r : HostReply} :
    actOn xs k a = some (ys, r) ↔ ∃ x y, xs[k]? = some x ∧ x.act a = some (y, r) ∧ ys = xs.set k y := by
  cases hx : xs[k]? with
  | none => simp [actOn, hx]
  | some x =>
    cases hact : x.act a with
    | none => simp [actOn, hx, hact]
    | some p => simp [actOn, hx, hact, Prod.ext_iff, and_comm, eq_comm]

/-- A session put in another's place is found there. -/
theorem getElem?_set_self_of_some {xs : List Session} {k : Nat} {x : Session} (y : Session) (h : xs[k]? = some x) :
    (xs.set k y)[k]? = some y :=
  List.getElem?_set_self (List.getElem?_eq_some_iff.mp h).1

/-- Actions on two cores commute: neither changes the session the other finds. -/
theorem actOn_comm {xs ys zs : List Session} {j k : Nat} {a b : HostAction} {p q : HostReply} (hjk : j ≠ k)
    (ha : actOn xs j a = some (ys, p)) (hb : actOn ys k b = some (zs, q)) :
    ∃ ws, actOn xs k b = some (ws, q) ∧ actOn ws j a = some (zs, p) := by
  obtain ⟨x, y, hx, hxy, rfl⟩ := actOn_eq_some_iff.mp ha
  obtain ⟨x', y', hx', hxy', rfl⟩ := actOn_eq_some_iff.mp hb
  rw [List.getElem?_set_ne hjk] at hx'
  refine ⟨xs.set k y', actOn_eq_some_iff.mpr ⟨x', y', hx', hxy', rfl⟩,
    actOn_eq_some_iff.mpr ⟨x, y, ?_, hxy, List.set_comm y y' hjk⟩⟩
  rw [List.getElem?_set_ne hjk.symm, hx]

/-- Settles O17: an action replaces the session it is for and no other, so two places commute. -/
theorem instancesShareNoState : Obligations.InstancesShareNoState := by
  unfold Obligations.InstancesShareNoState
  refine ⟨fun xs ys k a r h => ?_, fun xs k a x y r hx hxy => actOn_eq_some_iff.mpr ⟨x, y, hx, hxy, rfl⟩,
    fun xs ys zs j k a b p q => actOn_comm, fun xs => ⟨List.length_append, List.getElem?_concat_length,
      fun j => List.getElem?_append_left⟩⟩
  obtain ⟨x, y, hx, hxy, rfl⟩ := actOn_eq_some_iff.mp h
  exact ⟨List.length_set, fun j hj => List.getElem?_set_ne hj.symm, x, y, hx, hxy, getElem?_set_self_of_some y hx⟩

/-! ## Reset (10_state.md section 9) -/

@[simp] theorem readReg_reset (r : Reg8) : State.reset.readReg r = 0x00#8 := by cases r <;> rfl

@[simp] theorem readPair_reset (p : Pair) : State.reset.readPair p = 0x0000#16 := by
  rw [State.readPair, readReg_reset, readReg_reset]
  rfl

/-- Settles O6: every register and address reads zero, and the other pieces are written so. -/
theorem resetLeavesEveryPieceOfStateZero : Obligations.ResetLeavesEveryPieceOfStateZero := by
  unfold Obligations.ResetLeavesEveryPieceOfStateZero
  exact ⟨readReg_reset, readPair_reset, rfl, rfl, rfl, rfl, rfl, rfl, rfl, rfl, rfl, rfl, rfl, rfl, rfl,
    Memory.read_nil⟩

end Sys2Proof.Machine

/-! The instructions and their terms, one by one, and what one step does to each piece of the state. -/

namespace Sys2Proof.Machine

/-! ## Reading through the writes of a step -/

@[simp] theorem State.readReg_commitPc (s : State) (x : PcSel) (r : Reg8) :
    (s.commitPc x).readReg r = s.readReg r := rfl
@[simp] theorem State.readReg_writeFlags (s : State) (f : Flags) (r : Reg8) :
    (s.writeFlags f).readReg r = s.readReg r := rfl
@[simp] theorem State.readPair_commitPc (s : State) (x : PcSel) (p : Pair) :
    (s.commitPc x).readPair p = s.readPair p := rfl

/-! ## The next state of each instruction and of each kind of term, forwards -/

theorem exec_halt (s : State) : exec .halt s = .next (s.setHalted.commitPc .zero) := rfl

theorem exec_incB (s : State) : exec .incB s = .next (((s.writeReg .b (inc8 s.regs.b)).writeFlags
    (inc8Flags s.regs.b s.flags)).commitPc .seq) := rfl

theorem exec_incBC (s : State) :
    exec .incBC s = .next ((s.writePair .bc (inc16 (s.readPair .bc))).commitPc .seq) := rfl

theorem exec_incDE (s : State) :
    exec .incDE s = .next ((s.writePair .de (inc16 (s.readPair .de))).commitPc .seq) := rfl

theorem execTerm_addReg (r : Reg8) (s : State) :
    execTerm (.add (.reg r)) s = .next (((s.writeReg .a (add8 s.regs.a (s.readReg r))).writeFlags
      (add8Flags s.regs.a (s.readReg r))).commitPc .seq) := rfl

theorem execTerm_incReg (r : Reg8) (s : State) :
    execTerm (.inc (.reg r)) s = .next (((s.writeReg r (inc8 (s.readReg r))).writeFlags
      (inc8Flags (s.readReg r) s.flags)).commitPc .seq) := rfl

theorem execTerm_incPair (p : Pair) (s : State) :
    execTerm (.inc (.pair p)) s = .next ((s.writePair p (inc16 (s.readPair p))).commitPc .seq) := rfl

/-! ## HALT (41_control.md) -/

/-- Settles O32: HALT is the write of the halt flag and of pc, and a core so halted is terminal. -/
theorem haltSetsTheHaltFlagAndZeroesPc : Obligations.HaltSetsTheHaltFlagAndZeroesPc := by
  unfold Obligations.HaltSetsTheHaltFlagAndZeroesPc
  refine ⟨decodeByte_encode .halt, exec_halt, fun s t hkind h => ?_⟩
  have hhalted : t.status = .halted :=
    t.halted_iff.mpr ⟨(exec_halted_iff h).mpr (.inr rfl), by rw [exec_fault h, hkind]⟩
  refine ⟨hhalted, fun u hu => ?_⟩
  rw [step_of_not_running (by simp [hhalted])] at hu
  exact (Host.Outcome.next.inj hu).symm

/-! ## Add(r) (42_alu8.md section 2) -/

/-- Settles O38: A and the flags are those of ADD8 on the two operands as they were before the write. -/
theorem addRegisterTermResultFlagsAndFrame : Obligations.AddRegisterTermResultFlagsAndFrame := by
  unfold Obligations.AddRegisterTermResultFlagsAndFrame
  intro r s
  exact ⟨_, execTerm_addReg r s, add8_toNat s.regs.a (s.readReg r), add8Flags_z_iff _ _, rfl, add8Flags_h_iff _ _,
    add8Flags_c_iff _ _, nextPc_seq_toNat s.pc, rfl, rfl, rfl, fun _ => rfl⟩

/-- Add(r) puts the sum into A and leaves every other register. -/
theorem execTerm_addReg_registers (s : State) (r : Reg8) : ∃ t, execTerm (.add (.reg r)) s = .next t ∧
    (t.readReg .a).toNat = ((s.readReg .a).toNat + (s.readReg r).toNat) % 256 ∧
    ∀ r' : Reg8, r' ≠ .a → t.readReg r' = s.readReg r' := by
  refine ⟨_, execTerm_addReg r s, add8_toNat s.regs.a (s.readReg r), fun r' hr' => ?_⟩
  rw [State.readReg_commitPc, State.readReg_writeFlags, State.readReg_writeReg_other _ _ hr']

/-- Settles O10: the register file's laws, and A as the one register an Add writes. -/
theorem registersAreIndependentStorage : Obligations.RegistersAreIndependentStorage := by
  unfold Obligations.RegistersAreIndependentStorage
  exact ⟨State.readReg_writeReg_same, fun s r r' v => s.readReg_writeReg_other v, fun _ _ _ => rfl,
    fun s => execTerm_addReg_registers s .c, execTerm_addReg_registers⟩

/-! ## Inc(r) (42_alu8.md section 3) -/

/-- An increment answers zero on 255 alone. -/
theorem inc8_eq_zero_iff (v : Byte) : inc8 v = 0x00#8 ↔ v.toNat = 255 := by
  have hv := v.isLt
  rw [← BitVec.toNat_inj, inc8_toNat, BitVec.toNat_ofNat]
  omega

theorem inc8Flags_z_iff_toNat (v : Byte) (old : Flags) : (inc8Flags v old).z = true ↔ v.toNat = 255 :=
  (inc8Flags_z_iff v old).trans (inc8_eq_zero_iff v)

/-- Settles O39: the register and the flags Z, N, H are those of INC8, and no other register is written. -/
theorem incRegisterTermResultFlagsAndFrame : Obligations.IncRegisterTermResultFlagsAndFrame := by
  unfold Obligations.IncRegisterTermResultFlagsAndFrame
  intro r s
  refine ⟨_, execTerm_incReg r s, ?_, fun r' hr' => ?_, inc8Flags_z_iff_toNat _ _, rfl, inc8Flags_h_iff _ _, rfl,
    nextPc_seq_toNat s.pc, rfl, rfl, fun _ => rfl⟩
  · rw [State.readReg_commitPc, State.readReg_writeFlags, State.readReg_writeReg_same, inc8_toNat]
  · rw [State.readReg_commitPc, State.readReg_writeFlags, State.readReg_writeReg_other _ _ hr']

/-- Settles O34: B and the flags Z, N, H are those of INC8 on B. -/
theorem incBResultFlagsAndFrame : Obligations.IncBResultFlagsAndFrame := by
  unfold Obligations.IncBResultFlagsAndFrame
  exact ⟨decodeByte_encode .incB, fun s => ⟨_, exec_incB s, inc8_toNat s.regs.b, inc8Flags_z_iff_toNat _ _, rfl,
    inc8Flags_h_iff _ _, rfl, nextPc_seq_toNat s.pc, rfl, rfl, rfl, fun _ => rfl⟩⟩

/-! ## Inc(p) (43_inc16.md) -/

theorem inc16_toNat (w : Word) : (inc16 w).toNat = (w.toNat + 1) % 65536 := BitVec.toNat_add w 0x0001#16

/-- Settles O40: the pair holds its old value and one, and no register outside it is written. -/
theorem incPairTermResultAndFrame : Obligations.IncPairTermResultAndFrame := by
  unfold Obligations.IncPairTermResultAndFrame
  intro p s
  refine ⟨_, execTerm_incPair p s, ?_, fun r hhigh hlow => ?_, rfl, nextPc_seq_toNat s.pc, rfl, rfl, fun _ => rfl⟩
  · rw [State.readPair_commitPc, State.readPair_writePair_same, inc16_toNat]
  · rw [State.readReg_commitPc, State.readReg_writePair_other _ _ hhigh hlow]

/-- The increment of a pair, as the number its two registers make. -/
theorem incPair_registers_toNat (s : State) (p : Pair) :
    ((s.writePair p (inc16 (s.readPair p))).readReg p.high).toNat * 256 +
      ((s.writePair p (inc16 (s.readPair p))).readReg p.low).toNat =
      ((s.readReg p.high).toNat * 256 + (s.readReg p.low).toNat + 1) % 65536 := by
  rw [← State.readPair_toNat, State.readPair_writePair_same, inc16_toNat, State.readPair_toNat]

/-- Settles O35: Inc(p) at BC, whose frame is the five other registers. -/
theorem incBCResultAndFrame : Obligations.IncBCResultAndFrame := by
  unfold Obligations.IncBCResultAndFrame
  exact ⟨decodeByte_encode .incBC, fun s => ⟨_, exec_incBC s, incPair_registers_toNat s .bc, rfl,
    nextPc_seq_toNat s.pc, rfl, rfl, rfl, fun _ => rfl⟩⟩

/-- Settles O36: Inc(p) at DE, whose frame is the five other registers. -/
theorem incDEResultAndFrame : Obligations.IncDEResultAndFrame := by
  unfold Obligations.IncDEResultAndFrame
  exact ⟨decodeByte_encode .incDE, fun s => ⟨_, exec_incDE s, incPair_registers_toNat s .de, rfl,
    nextPc_seq_toNat s.pc, rfl, rfl, rfl, fun _ => rfl⟩⟩

theorem lowByte_inc16_joinBytes (x y : Byte) : lowByte (inc16 (joinBytes x y)) = y + 0x01#8 := by
  apply BitVec.eq_of_toNat_eq
  rw [lowByte_toNat, inc16_toNat, joinBytes_toNat, BitVec.toNat_add, BitVec.toNat_ofNat]
  omega

/-- A full low byte carries into the high byte. -/
theorem highByte_inc16_joinBytes_full (x : Byte) : highByte (inc16 (joinBytes x 0xFF#8)) = x + 0x01#8 := by
  have hx := x.isLt
  apply BitVec.eq_of_toNat_eq
  rw [highByte_toNat, inc16_toNat, joinBytes_toNat, BitVec.toNat_add, BitVec.toNat_ofNat, BitVec.toNat_ofNat]
  omega

/-- A low byte that is not full leaves the high byte as it is. -/
theorem highByte_inc16_joinBytes_not_full (x : Byte) {y : Byte} (h : y ≠ 0xFF#8) :
    highByte (inc16 (joinBytes x y)) = x := by
  have hx := x.isLt
  have hy := y.isLt
  have hne : y.toNat ≠ 255 := fun e => h (BitVec.eq_of_toNat_eq e)
  apply BitVec.eq_of_toNat_eq
  rw [highByte_toNat, inc16_toNat, joinBytes_toNat]
  omega

/-- Settles O47: the incremented pair splits into the low byte and one, and the high byte with its carry. -/
theorem inc16CarriesFromLowToHigh : Obligations.Inc16CarriesFromLowToHigh := by
  unfold Obligations.Inc16CarriesFromLowToHigh
  intro p s t h
  rw [execTerm_incPair] at h
  cases h
  simp only [State.readReg_commitPc, State.readPair_commitPc, State.readReg_writePair_low,
    State.readReg_writePair_high, State.readPair_writePair_same]
  refine ⟨lowByte_inc16_joinBytes _ _, fun hfull => ?_, highByte_inc16_joinBytes_not_full _, fun hfull => ?_⟩
  · rw [State.readPair, hfull, highByte_inc16_joinBytes_full]
  · rw [hfull]
    rfl

/-! ## Terms that raise (60_exceptions.md section 1) -/

/-- The terms no arm handles, one by one (42_alu8.md R107, 43_inc16.md R118). -/
theorem Term.supported_eq_false_iff (i : Term) : i.supported = false ↔
    i = .add (.pair .bc) ∨ i = .add (.pair .de) ∨ i = .add (.pair .hl) ∨ (∃ v, i = .add (.imm8 v)) ∨
    i = .add .memHL ∨ (∃ v, i = .inc (.imm8 v)) ∨ i = .inc .memHL := by
  cases i with
  | nop => simp [Term.supported]
  | halt => simp [Term.supported]
  | add t =>
    cases t with
    | pair p => cases p <;> simp [Term.supported, Target.addOk]
    | _ => simp [Term.supported, Target.addOk]
  | inc t => cases t <;> simp [Term.supported, Target.incOk]

/-- Settles O41: an unsupported term answers the state with its record, a supported one keeps the record. -/
theorem unsupportedTargetsRaiseAndChangeNothingElse : Obligations.UnsupportedTargetsRaiseAndChangeNothingElse := by
  unfold Obligations.UnsupportedTargetsRaiseAndChangeNothingElse
  exact ⟨fun i s hi => ⟨_, execTerm_of_unsupported hi s, faulted_takeFault_unsupportedOperand _ _ _ _, rfl, rfl, rfl,
    rfl, rfl, rfl, rfl, rfl, rfl, fun _ => rfl⟩, fun _ _ _ => execTerm_fault, Term.supported_eq_false_iff⟩

/-- Settles O42: a step raises UnknownOpcode only, and a RUNNING core has no record to keep. -/
theorem noFetchedByteRaisesUnsupportedOperand : Obligations.NoFetchedByteRaisesUnsupportedOperand := by
  unfold Obligations.NoFetchedByteRaisesUnsupportedOperand
  intro s t h hkind
  obtain ⟨-, rfl⟩ | ⟨-, -, rfl⟩ | ⟨hs, i, -, hexec⟩ := step_cases h
  · rfl
  · cases hkind
  · obtain ⟨-, hnone⟩ := s.running_iff.mp hs
    rw [exec_fault hexec, hnone] at hkind
    cases hkind

/-! ## Which flags an instruction writes (10_state.md section 3) -/

theorem exec_flags {i : Instr} {s t : State} (hadd : i ≠ .addAC) (hinc : i ≠ .incB) (h : exec i s = .next t) :
    t.flags = s.flags := by
  obtain ⟨rfl, rfl⟩ | ⟨rfl, rfl⟩ | ⟨rfl, rfl⟩ | ⟨rfl, rfl⟩ | ⟨rfl, rfl⟩ | ⟨rfl, rfl⟩ := exec_cases h
  case inr.inr.inl => exact absurd rfl hinc
  case inr.inr.inr.inr.inr => exact absurd rfl hadd
  all_goals rfl

/-- Only ADD A,C writes the carry flag. -/
theorem exec_flags_c {i : Instr} {s t : State} (hadd : i ≠ .addAC) (h : exec i s = .next t) :
    t.flags.c = s.flags.c := by
  by_cases hinc : i = .incB
  · subst hinc
    cases h
    rfl
  · rw [exec_flags hadd hinc h]

/-- The two instructions that write N clear it. -/
theorem exec_flags_n {i : Instr} {s t : State} (h : exec i s = .next t) (ht : t.flags.n = true) :
    s.flags.n = true := by
  by_cases hadd : i = .addAC
  · subst hadd
    cases h
    cases ht
  · by_cases hinc : i = .incB
    · subst hinc
      cases h
      cases ht
    · rwa [← exec_flags hadd hinc h]

/-- A step changes the flags as the decoded instruction does, and not at all where none is decoded. -/
theorem step_flags {s t : State} (h : step s = .next t) :
    t.flags = s.flags ∨ (s.status = .running ∧ ∃ i, decodeByte s.fetch = some i ∧ exec i s = .next t) := by
  obtain ⟨-, rfl⟩ | ⟨-, -, rfl⟩ | hexec := step_cases h
  · exact .inl rfl
  · exact .inl rfl
  · exact .inr hexec

theorem step_flags_n {s t : State} (h : step s = .next t) (ht : t.flags.n = true) : s.flags.n = true := by
  obtain hkeep | ⟨-, i, -, hexec⟩ := step_flags h
  · rwa [← hkeep]
  · exact exec_flags_n hexec ht

/-- Settles O29: four instructions keep every flag, the other two write those of ADD8 and INC8. -/
theorem flagsAreWrittenOnlyByAddAndIncB : Obligations.FlagsAreWrittenOnlyByAddAndIncB := by
  unfold Obligations.FlagsAreWrittenOnlyByAddAndIncB
  refine ⟨fun _ _ => exec_flags nofun nofun, fun _ _ => exec_flags nofun nofun, fun _ _ => exec_flags nofun nofun,
    fun _ _ => exec_flags nofun nofun, fun s t h => ?_, fun s t h => ?_, fun _ _ => step_flags_n⟩
  · cases h
    exact ⟨rfl, rfl, inc8Flags_z_iff s.regs.b s.flags, inc8Flags_h_iff s.regs.b s.flags⟩
  · cases h
    exact ⟨rfl, add8Flags_z_iff s.regs.a s.regs.c, add8Flags_h_iff s.regs.a s.regs.c,
      add8Flags_c_iff s.regs.a s.regs.c⟩

/-! ## Which registers an instruction writes (10_state.md section 1) -/

/-- The registers an instruction may change: the "written by" column of the access table, by instruction. -/
def writtenRegs : Instr → List Reg8
  | .nop => []
  | .incBC => [.b, .c]
  | .incB => [.b]
  | .incDE => [.d, .e]
  | .halt => []
  | .addAC => [.a]

/-- An instruction leaves every register it does not write. -/
theorem exec_readReg {i : Instr} {s t : State} (h : exec i s = .next t) {r : Reg8} (hr : r ∉ writtenRegs i) :
    t.readReg r = s.readReg r := by
  obtain ⟨rfl, rfl⟩ | ⟨rfl, rfl⟩ | ⟨rfl, rfl⟩ | ⟨rfl, rfl⟩ | ⟨rfl, rfl⟩ | ⟨rfl, rfl⟩ := exec_cases h
  case inl => rfl
  case inr.inl =>
    obtain ⟨hb, hc⟩ : r ≠ .b ∧ r ≠ .c := by simpa [writtenRegs] using hr
    exact s.readReg_writePair_other _ hb hc
  case inr.inr.inl => exact s.readReg_writeReg_other _ (List.ne_of_not_mem_cons hr)
  case inr.inr.inr.inl =>
    obtain ⟨hd, he⟩ : r ≠ .d ∧ r ≠ .e := by simpa [writtenRegs] using hr
    exact s.readReg_writePair_other _ hd he
  case inr.inr.inr.inr.inl => rfl
  case inr.inr.inr.inr.inr => exact s.readReg_writeReg_other _ (List.ne_of_not_mem_cons hr)

theorem a_notMem_writtenRegs {i : Instr} (h : i ≠ .addAC) : Reg8.a ∉ writtenRegs i := by
  revert h; cases i <;> decide
theorem b_notMem_writtenRegs {i : Instr} (h : i ≠ .incB) (h' : i ≠ .incBC) : Reg8.b ∉ writtenRegs i := by
  revert h h'; cases i <;> decide
theorem c_notMem_writtenRegs {i : Instr} (h : i ≠ .incBC) : Reg8.c ∉ writtenRegs i := by
  revert h; cases i <;> decide
theorem de_notMem_writtenRegs {i : Instr} (h : i ≠ .incDE) : Reg8.d ∉ writtenRegs i ∧ Reg8.e ∉ writtenRegs i := by
  revert h; cases i <;> decide
/-- No instruction writes H or L. -/
theorem hl_notMem_writtenRegs (i : Instr) : Reg8.h ∉ writtenRegs i ∧ Reg8.l ∉ writtenRegs i := by
  cases i <;> decide

theorem step_keeps_hl {s t : State} (h : step s = .next t) : t.regs.h = s.regs.h ∧ t.regs.l = s.regs.l := by
  obtain ⟨-, rfl⟩ | ⟨-, -, rfl⟩ | ⟨-, i, -, hexec⟩ := step_cases h
  · exact ⟨rfl, rfl⟩
  · exact ⟨rfl, rfl⟩
  · obtain ⟨hh, hl⟩ := hl_notMem_writtenRegs i
    exact ⟨exec_readReg hexec hh, exec_readReg hexec hl⟩

/-- Settles O30: an instruction leaves what it does not write, and none writes H or L. -/
theorem registersAreWrittenOnlyAsTheAccessTableSays : Obligations.RegistersAreWrittenOnlyAsTheAccessTableSays := by
  unfold Obligations.RegistersAreWrittenOnlyAsTheAccessTableSays
  refine ⟨fun i s t h => ?_, fun n s t h => ?_⟩
  · obtain ⟨hh, hl⟩ := hl_notMem_writtenRegs i
    refine ⟨fun hi => exec_readReg h (a_notMem_writtenRegs hi), fun hi hi' => exec_readReg h (b_notMem_writtenRegs hi hi'),
      fun hi => exec_readReg h (c_notMem_writtenRegs hi), fun hi => ?_, exec_readReg h hh, exec_readReg h hl, exec_fault h⟩
    obtain ⟨hd, he⟩ := de_notMem_writtenRegs hi
    exact ⟨exec_readReg h hd, exec_readReg h he⟩
  · refine stepsTo_keeps (P := fun u => u.regs.h = s.regs.h ∧ u.regs.l = s.regs.l) (fun u v hu huv => ?_) n s t
      ⟨rfl, rfl⟩ h
    obtain ⟨hh, hl⟩ := step_keeps_hl huv
    exact ⟨hh.trans hu.1, hl.trans hu.2⟩

/-! ## The byte at pc decides the step (40_engine.md section 2) -/

theorem decodeByte_eq_some_iff {b : Byte} {i : Instr} : decodeByte b = some i ↔ b = encode i := by
  refine ⟨fun h => (encode_eq_of_decodeByte h).symm, fun h => ?_⟩
  rw [h, decodeByte_encode]

/-- The bytes that end a run: HALT's, and those that do not decode. -/
theorem stopsRun_eq (b : Byte) : stopsRun b = (decodeByte b).elim true (fun i => decide (i = .halt)) := by
  unfold stopsRun
  cases decodeByte b with
  | none => rfl
  | some i => cases i <;> rfl

/-- The status after a step of a RUNNING core, by what the byte at pc decodes to. -/
theorem step_status {s t : State} (hs : s.status = .running) (h : step s = .next t) :
    t.status = (decodeByte s.fetch).elim .faulted (fun i => if i = .halt then .halted else .running) := by
  cases hd : decodeByte s.fetch with
  | none =>
    rw [step_of_undecodable hs hd] at h
    cases h
    exact faulted_takeFault_unknownOpcode s s.pc s.fetch
  | some i =>
    rw [step_of_decodes hs hd] at h
    exact exec_status hs h

/-- Settles O27: the three statuses are told apart by what the byte decodes to. -/
theorem statusAfterOneStep : Obligations.StatusAfterOneStep := by
  unfold Obligations.StatusAfterOneStep
  intro s t hs h
  have hhalt : s.mem.read s.pc = 0x76#8 ↔ decodeByte s.fetch = some .halt :=
    (decodeByte_eq_some_iff (i := .halt)).symm
  have hstop := stopsRun_eq s.fetch
  rw [State.fetch] at hhalt hstop
  rw [step_status hs h, hhalt, hstop, State.fetch]
  cases decodeByte (s.mem.read s.pc) with
  | none => simp
  | some i => by_cases hi : i = .halt <;> simp [hi]

/-- Settles O26: an instruction commits its pc, a fault commits none. -/
theorem pcAfterOneStep : Obligations.PcAfterOneStep := by
  unfold Obligations.PcAfterOneStep
  refine fun s t hs h => ⟨fun i hi hne => ?_, fun hhalt => ?_, fun hnone => ?_⟩
  · rw [step_of_decodes hs hi] at h
    rw [exec_pc h, if_neg hne]
    exact nextPc_seq_toNat s.pc
  · rw [step_of_decodes hs hhalt] at h
    rw [exec_pc h, if_pos rfl]
  · rw [step_of_undecodable hs hnone] at h
    cases h
    rfl

/-- Settles O20: a byte that is no instruction's raises on a RUNNING core, and no instruction faults there. -/
theorem illegalByteFaultsInPlace : Obligations.IllegalByteFaultsInPlace := by
  unfold Obligations.IllegalByteFaultsInPlace
  refine ⟨?_, fun s t hs h hfault => ?_⟩
  · rintro s b hs rfl hnop hincBC hincB hincDE hhalt haddAC
    have hnone : decodeByte s.fetch = none := by
      rw [decodeByte_eq_none_iff]
      intro i
      cases i <;> assumption
    obtain ⟨hhalted, -⟩ := s.running_iff.mp hs
    exact ⟨_, step_of_undecodable hs hnone, faulted_takeFault_unknownOpcode s s.pc s.fetch, rfl, rfl, rfl, rfl, rfl,
      rfl, hhalted, rfl, rfl, fun _ => rfl⟩
  · rw [step_status hs h] at hfault
    change decodeByte s.fetch = none
    cases hd : decodeByte s.fetch with
    | none => rfl
    | some i => by_cases hi : i = .halt <;> simp [hd, hi] at hfault

/-- An instruction does not look at memory: with another memory it does the same beside it. -/
theorem exec_with_mem {i : Instr} {s t : State} (m : Memory) (h : exec i s = .next t) :
    exec i { s with mem := m } = .next { t with mem := m } := by
  cases i <;> (cases h; rfl)

/-- Settles O23: of memory a step sees the fetched byte only. -/
theorem stepReadsOnlyTheByteAtPc : Obligations.StepReadsOnlyTheByteAtPc := by
  unfold Obligations.StepReadsOnlyTheByteAtPc
  intro s t m hread h
  have hstatus : ({ s with mem := m } : State).status = s.status := rfl
  have hfetch : ({ s with mem := m } : State).fetch = s.fetch := hread
  obtain ⟨hs, rfl⟩ | ⟨hs, hnone, rfl⟩ | ⟨hs, i, hi, hexec⟩ := step_cases h
  · exact step_of_not_running (hstatus ▸ hs)
  · rw [step_of_undecodable (hstatus.trans hs) (hfetch ▸ hnone), hfetch]
    rfl
  · rw [step_of_decodes (hstatus.trans hs) (hfetch ▸ hi)]
    exact exec_with_mem m hexec

@[simp] theorem wordByte_toNat (b : Byte) : wordByte 8 b.toNat = b := by
  rw [wordByte, Nat.mod_eq_of_lt b.isLt, BitVec.ofNat_toNat, BitVec.setWidth_eq]

/-- Settles O19: the placed byte is read back at pc, and it is the instruction's. -/
theorem placedInstructionIsTheNextToRun : Obligations.PlacedInstructionIsTheNextToRun := by
  unfold Obligations.PlacedInstructionIsTheNextToRun
  intro s i hs hwf
  refine ⟨step_of_decodes hs ?_, fun a => Memory.read_write_other s.mem s.pc a _, rfl⟩
  rw [State.fetch, State.withFetchWord_mem, State.withFetchWord_pc, Memory.read_write_same hwf, wordByte_toNat,
    decodeByte_encode]

/-! ## Runs keep memory (20_memory.md section 5) -/

theorem stepsTo_completes (n : Nat) (s : State) : ∃ t, StepsTo n s t := by
  induction n generalizing s with
  | zero => exact ⟨s, stepsTo_zero.mpr rfl⟩
  | succ n ih =>
    obtain ⟨u, hu⟩ := step_completes s
    obtain ⟨t, ht⟩ := ih u
    exact ⟨t, stepsTo_succ.mpr ⟨u, hu, ht⟩⟩

theorem stepsTo_mem {n : Nat} {s t : State} (h : StepsTo n s t) : t.mem = s.mem :=
  stepsTo_keeps (P := fun u => u.mem = s.mem) (fun _ _ hu huv => (step_mem huv).trans hu) n s t rfl h

/-- Settles O22: every execution answers a next state, and none writes memory. -/
theorem everyStepCompletesAndKeepsMemory : Obligations.EveryStepCompletesAndKeepsMemory := by
  unfold Obligations.EveryStepCompletesAndKeepsMemory
  refine ⟨fun s => ?_, fun i s => ?_, fun n s => ?_⟩
  · obtain ⟨t, ht⟩ := step_completes s
    exact ⟨t, ht, step_mem ht, fun a => by rw [step_mem ht]⟩
  · obtain ⟨t, ht⟩ := execTerm_completes i s
    exact ⟨t, ht, execTerm_mem ht, fun a => by rw [execTerm_mem ht]⟩
  · obtain ⟨t, ht⟩ := stepsTo_completes n s
    exact ⟨t, ht, stepsTo_mem ht⟩

end Sys2Proof.Machine

/-! The ALU's laws and counts, and the block-level core. -/

namespace Sys2Proof.Machine

/-! ## The program counter controller (40_engine.md section 3) -/

/-- Settles O48: the sequential pc as a number, the rest by the controller's table. -/
theorem pcControllerSelectsSeqZeroOrHold : Obligations.PcControllerSelectsSeqZeroOrHold := by
  unfold Obligations.PcControllerSelectsSeqZeroOrHold
  exact ⟨fun pc => ⟨nextPc_seq_toNat pc, rfl, rfl⟩, rfl, rfl, rfl, rfl⟩

/-! ## INC8 against ADD8 (42_alu8.md section 3) -/

theorem inc8_eq_add8_one (v : Byte) : inc8 v = add8 v 0x01#8 := by
  apply BitVec.eq_of_toNat_eq
  rw [inc8_toNat, add8_toNat]
  rfl

/-- INC8 sets the half carry as ADD8 of 1 does: on a full low nibble. -/
theorem inc8Flags_h_eq_add8Flags_one (v : Byte) (old : Flags) : (inc8Flags v old).h = (add8Flags v 0x01#8).h := by
  rw [Bool.eq_iff_iff, inc8Flags_h_iff, add8Flags_h_iff, BitVec.toNat_ofNat]
  omega

theorem inc8Flags_eq_add8Flags_one (v : Byte) (old : Flags) :
    inc8Flags v old = { add8Flags v 0x01#8 with c := old.c } := by
  have hz : (inc8Flags v old).z = (add8Flags v 0x01#8).z := by
    rw [Bool.eq_iff_iff, inc8Flags_z_iff, add8Flags_z_iff, inc8_eq_add8_one]
  exact congrArg₂ (fun z h => Flags.mk z false h old.c) hz (inc8Flags_h_eq_add8Flags_one v old)

/-- Settles O46: result, zero and half-carry are those of ADD8 with 1, and the carry is the old one. -/
theorem inc8IsAdd8OfOneButForCarry : Obligations.Inc8IsAdd8OfOneButForCarry := by
  unfold Obligations.Inc8IsAdd8OfOneButForCarry
  refine ⟨inc8_eq_add8_one, inc8Flags_eq_add8Flags_one, fun v old => ?_, fun v old => ?_⟩
  · rw [inc8Flags_z_iff_toNat, ← BitVec.toNat_inj]
    rfl
  · have hv := v.isLt
    rw [inc8Flags_h_iff]
    constructor
    · exact fun h => ⟨v.toNat / 16, by omega, by omega⟩
    · rintro ⟨k, -, hk⟩
      omega

/-! ## Addition commutes, and how often each flag is set (42_alu8.md section 2) -/

theorem add8_comm (a b : Byte) : add8 a b = add8 b a := by
  rw [add8, add8, add8Sum, add8Sum, BitVec.add_comm]

theorem add8Flags_comm (a b : Byte) : add8Flags a b = add8Flags b a := by
  rw [add8Flags, add8Flags, add8_comm, add8Sum, add8Sum, BitVec.add_comm (a.zeroExtend 16),
    BitVec.add_comm (a &&& 0x0F#8)]

/-- Below `n` the numbers from `k` on are `n - k`. -/
theorem countP_range_le (k n : Nat) : (List.range n).countP (fun y => decide (k ≤ y)) = n - k := by
  induction n with
  | zero => simp
  | succ n ih =>
    rw [List.range_succ, List.countP_append, ih, List.countP_singleton]
    by_cases h : k ≤ n
    · simp only [h, decide_true, if_true]
      omega
    · simp only [h, decide_false, Bool.false_eq_true, if_false]
      omega

/-- Below `16 * n` the numbers whose low nibble is at least `k` are `16 - k` for each sixteen. -/
theorem countP_range_nibble_le (k n : Nat) :
    (List.range (16 * n)).countP (fun y => decide (k ≤ y % 16)) = n * (16 - k) := by
  induction n with
  | zero => simp
  | succ n ih =>
    have hrow : (List.range 16).countP (fun y => decide (k ≤ (16 * n + y) % 16)) = 16 - k := by
      rw [← countP_range_le k 16]
      refine List.countP_congr fun y hy => ?_
      rw [Nat.mul_add_mod, Nat.mod_eq_of_lt (List.mem_range.mp hy)]
    rw [Nat.mul_succ, List.range_add, List.countP_append, List.countP_map, ih, Nat.succ_mul n]
    exact congrArg (n * (16 - k) + ·) hrow

theorem toNat_byte_of_lt {x : Nat} (h : x < 256) : (BitVec.ofNat 8 x : Byte).toNat = x := Nat.mod_eq_of_lt h

/-- A row of the addition table has one zero: the sum is 0 or 256. -/
theorem countP_add8Flags_z {x : Nat} (hx : x < 256) :
    (List.range 256).countP (fun y => (add8Flags (BitVec.ofNat 8 x) (BitVec.ofNat 8 y)).z) = 1 := by
  have hone : (List.range 256).countP (fun y => y == (256 - x) % 256) = 1 :=
    List.count_eq_one_of_mem List.nodup_range (List.mem_range.mpr (Nat.mod_lt _ (by decide)))
  rw [← hone]
  refine List.countP_congr fun y hy => ?_
  have hy := List.mem_range.mp hy
  rw [add8Flags_z_iff, ← BitVec.toNat_inj, add8_toNat, toNat_byte_of_lt hx, toNat_byte_of_lt hy, BitVec.toNat_ofNat,
    beq_iff_eq]
  omega

/-- The row of `x` carries from `256 - x` on. -/
theorem countP_add8Flags_c {x : Nat} (hx : x < 256) :
    (List.range 256).countP (fun y => (add8Flags (BitVec.ofNat 8 x) (BitVec.ofNat 8 y)).c) = x := by
  have hrow : (List.range 256).countP (fun y => decide (256 - x ≤ y)) = x := by
    rw [countP_range_le]
    omega
  refine Eq.trans (List.countP_congr fun y hy => ?_) hrow
  have hy := List.mem_range.mp hy
  rw [add8Flags_c_iff, toNat_byte_of_lt hx, toNat_byte_of_lt hy, decide_eq_true_iff]
  omega

/-- The row of `x` half-carries where the low nibble is at least what is missing from that of `x`. -/
theorem countP_add8Flags_h {x : Nat} (hx : x < 256) :
    (List.range 256).countP (fun y => (add8Flags (BitVec.ofNat 8 x) (BitVec.ofNat 8 y)).h) = 16 * (x % 16) := by
  have hrow : (List.range 256).countP (fun y => decide (16 - x % 16 ≤ y % 16)) = 16 * (x % 16) := by
    rw [show 256 = 16 * 16 from rfl, countP_range_nibble_le]
    omega
  refine Eq.trans (List.countP_congr fun y hy => ?_) hrow
  have hy := List.mem_range.mp hy
  rw [add8Flags_h_iff, toNat_byte_of_lt hx, toNat_byte_of_lt hy, decide_eq_true_iff]
  omega

/-- A table's total is the sum of what its rows count. -/
theorem sum_map_range_congr {f g : Nat → Nat} {n : Nat} (h : ∀ x, x < n → f x = g x) :
    ((List.range n).map f).sum = ((List.range n).map g).sum :=
  congrArg List.sum (List.map_congr_left fun x hx => h x (List.mem_range.mp hx))

/-- The rows of a sixteen half-carry 1920 times, whichever sixteen it is. -/
theorem sum_map_range_nibble (n : Nat) : ((List.range (16 * n)).map fun x => 16 * (x % 16)).sum = n * 1920 := by
  induction n with
  | zero => rfl
  | succ n ih =>
    have hrows : ((List.range 16).map fun y => 16 * ((16 * n + y) % 16)).sum = 1920 := by
      simp only [Nat.mul_add_mod]
      decide
    rw [Nat.mul_succ, List.range_add, List.map_append, List.sum_append, List.map_map, ih, Nat.succ_mul n]
    exact congrArg (n * 1920 + ·) hrows

/-- Settles O45: each flag is counted row by row of the addition table, and the rows are added up. -/
theorem add8CommutesAndItsFlagCounts : Obligations.Add8CommutesAndItsFlagCounts := by
  unfold Obligations.Add8CommutesAndItsFlagCounts
  refine ⟨fun a b => ⟨add8_comm a b, add8Flags_comm a b⟩, ?_, ?_, ?_⟩
  · rw [sum_map_range_congr fun _ => countP_add8Flags_z, List.map_const', List.sum_replicate, List.length_range, smul_eq_mul]
  · rw [sum_map_range_congr fun _ => countP_add8Flags_c]
    exact Finset.sum_range_id 256
  · rw [sum_map_range_congr fun _ => countP_add8Flags_h]
    exact sum_map_range_nibble 16

/-! ## Execute control and the ports (40_engine.md section 4) -/

/-- Everything execute control can drive: one write port with SEQ, the halt flag with ZERO, SEQ alone, or a fault
with nothing enabled. -/
theorem executeControl_cases (d : DecOut) :
    (∃ k, executeControl d = { Control.idle d with raises := k }) ∨
    executeControl d = { Control.idle d with pcSel := .seq } ∨
    executeControl d = { Control.idle d with haltWe := true, pcSel := .zero } ∨
    (∃ r, executeControl d =
      { Control.idle d with aluOp := .add8, rd8Sel := r, wr8En := true, wr8Sel := .a, pcSel := .seq }) ∨
    (∃ r, executeControl d =
      { Control.idle d with aluOp := .inc8, rd8Sel := r, wr8En := true, wr8Sel := r, pcSel := .seq }) ∨
    (∃ p, executeControl d =
      { Control.idle d with aluOp := .inc16, rd16Sel := p, wr16En := true, wr16Sel := p, pcSel := .seq }) := by
  obtain ⟨valid, kind, target⟩ := d
  cases valid with
  | false => exact .inl ⟨_, rfl⟩
  | true =>
    cases kind with
    | nop => exact .inr (.inl rfl)
    | halt => exact .inr (.inr (.inl rfl))
    | add =>
      cases h : targetReg8 target with
      | some r => exact .inr (.inr (.inr (.inl ⟨r, by simp [executeControl, controlAdd, h]⟩)))
      | none => exact .inl ⟨.unsupportedOperand, by simp [executeControl, controlAdd, h]⟩
    | inc =>
      cases h : targetReg8 target with
      | some r => exact .inr (.inr (.inr (.inr (.inl ⟨r, by simp [executeControl, controlInc, h]⟩))))
      | none =>
        cases h' : targetPair target with
        | some p => exact .inr (.inr (.inr (.inr (.inr ⟨p, by simp [executeControl, controlInc, h, h']⟩))))
        | none => exact .inl ⟨.unsupportedOperand, by simp [executeControl, controlInc, h, h']⟩

/-- Settles O49: read off each thing execute control can drive, and off each flag's enable. -/
theorem portsWriteAtMostOnceAndDisabledFlagsKeepTheirValue :
    Obligations.PortsWriteAtMostOnceAndDisabledFlagsKeepTheirValue := by
  unfold Obligations.PortsWriteAtMostOnceAndDisabledFlagsKeepTheirValue
  refine ⟨fun d => ?_, fun old fwe new => ?_, fun d hraise => ?_⟩
  · obtain ⟨k, h⟩ | h | h | ⟨r, h⟩ | ⟨r, h⟩ | ⟨p, h⟩ := executeControl_cases d <;> rw [h] <;> rfl
  · exact ⟨fun h => by simp [flagsWrite, h], fun h => by simp [flagsWrite, h], fun h => by simp [flagsWrite, h],
      fun h => by simp [flagsWrite, h]⟩
  · obtain ⟨k, h⟩ | h | h | ⟨r, h⟩ | ⟨r, h⟩ | ⟨p, h⟩ := executeControl_cases d
    · rw [h]
      exact ⟨rfl, rfl, rfl, rfl, rfl⟩
    all_goals exact absurd (congrArg Control.raises h) hraise

/-! ## The block-level core is the step (40_engine.md section 1) -/

/-- The joined blocks do what the term does: execute control enables the writes of its arm, and the ALU drives
the values of its operation. -/
theorem datapathExec_term (i : Term) (s : State) :
    execTerm i s =
      .next (datapathExec { valid := true, kind := i.kind, target := i.tag } (fetchUnit s.mem s.pc) s) := by
  cases i with
  | nop => rfl
  | halt => rfl
  | add t =>
    cases t with
    | reg r => cases r <;> rfl
    | pair p => cases p <;> rfl
    | imm8 v => rfl
    | memHL => rfl
  | inc t =>
    cases t with
    | reg r => cases r <;> rfl
    | pair p => cases p <;> rfl
    | imm8 v => rfl
    | memHL => rfl

/-- On `valid` 0 the joined blocks write the fault record alone. -/
theorem datapathExec_invalid (s : State) :
    datapathExec { valid := false, kind := .nop, target := .a } (fetchUnit s.mem s.pc) s =
      s.takeFault (.unknownOpcode s.pc s.fetch) := rfl

theorem datapathStep_of_running {s : State} (h : s.status = .running) :
    datapathStep s = datapathExec (decoderBlock s.fetch) (fetchUnit s.mem s.pc) s := by
  simp [datapathStep, h, fetchUnit, State.fetch]

theorem datapathStep_of_not_running {s : State} (h : s.status ≠ .running) : datapathStep s = s := by
  cases hs : s.status with
  | running => exact absurd hs h
  | halted => simp [datapathStep, hs]
  | faulted => simp [datapathStep, hs]

/-- The two views of one step agree in each of its three cases. -/
theorem step_eq_datapathStep (s : State) : step s = .next (datapathStep s) := by
  by_cases hs : s.status = .running
  · rw [datapathStep_of_running hs]
    cases hd : decodeByte s.fetch with
    | none => rw [step_of_undecodable hs hd, decoderBlock_of_none hd, datapathExec_invalid]
    | some i => rw [step_of_decodes hs hd, decoderBlock_of_some hd, exec_eq_execTerm, datapathExec_term]
  · rw [step_of_not_running hs, datapathStep_of_not_running hs]

/-- Settles O50: the decoder block drives the term of the byte, and the blocks then do what the term does. -/
theorem datapathIsTheStep : Obligations.DatapathIsTheStep := by
  unfold Obligations.DatapathIsTheStep
  exact ⟨step_eq_datapathStep, datapathExec_term⟩

end Sys2Proof.Machine

/-! Runs (40_engine.md sections 3, 5, 6): where they stand, where they end, and what they keep. -/

namespace Sys2Proof.Machine

/-! ## One step of a run -/

/-- A step that leaves the core RUNNING ran an instruction other than HALT on a RUNNING core. -/
theorem exec_of_step_running {s t : State} (h : step s = .next t) (ht : t.status = .running) :
    s.status = .running ∧ ∃ i, i ≠ .halt ∧ decodeByte s.fetch = some i ∧ exec i s = .next t := by
  obtain ⟨hs, rfl⟩ | ⟨-, -, rfl⟩ | ⟨hs, i, hi, hexec⟩ := step_cases h
  · exact absurd ht hs
  · simp [faulted_takeFault_unknownOpcode] at ht
  · refine ⟨hs, i, fun hhalt => ?_, hi, hexec⟩
    simp [exec_status hs hexec, hhalt] at ht

/-- A step leaves the core RUNNING exactly when it was and the fetched byte stops no run. -/
theorem step_running_iff {s t : State} (h : step s = .next t) :
    t.status = .running ↔ s.status = .running ∧ stopsRun s.fetch = false := by
  constructor
  · intro ht
    obtain ⟨hs, i, hne, hi, -⟩ := exec_of_step_running h ht
    exact ⟨hs, by simp [stopsRun_eq, hi, hne]⟩
  · rintro ⟨hs, hb⟩
    rw [step_status hs h]
    rw [stopsRun_eq] at hb
    cases hd : decodeByte s.fetch with
    | none => simp [hd] at hb
    | some i => simpa [hd] using hb

/-- How the step that ends a run leaves the core: halted at pc zero, or faulted in place. -/
theorem step_ends {s t : State} (hs : s.status = .running) (h : step s = .next t) (ht : t.status ≠ .running) :
    (t.status = .halted ∧ s.fetch = 0x76#8 ∧ t = { s with halted := true, pc := 0x0000#16 }) ∨
    (t.status = .faulted ∧ decodeByte s.fetch = none ∧ t = { s with fault := .unknownOpcode s.pc s.fetch }) := by
  cases hd : decodeByte s.fetch with
  | none =>
    rw [step_of_undecodable hs hd] at h
    cases h
    exact .inr ⟨faulted_takeFault_unknownOpcode s s.pc s.fetch, rfl, rfl⟩
  | some i =>
    rw [step_of_decodes hs hd] at h
    have hstatus := exec_status hs h
    by_cases hi : i = .halt
    · subst hi
      cases h
      exact .inl ⟨hstatus, decodeByte_eq_some_iff.mp hd, rfl⟩
    · rw [if_neg hi] at hstatus
      exact absurd hstatus ht

/-! ## Where a RUNNING run stands (40_engine.md section 3) -/

/-- `t` is RUNNING `n` addresses on from `s`, over the same memory and with the same fault record. -/
structure RunsAhead (n : Nat) (s t : State) : Prop where
  running : t.status = .running
  pc : t.pc = s.pc + BitVec.ofNat 16 n
  mem : t.mem = s.mem
  fault : t.fault = s.fault

theorem ofNat_succ_word (n : Nat) : BitVec.ofNat 16 (n + 1) = BitVec.ofNat 16 n + 0x0001#16 :=
  BitVec.ofNat_add n 1

/-- One more step that leaves the core RUNNING goes one address further. -/
theorem RunsAhead.succ {n : Nat} {s t u : State} (h : RunsAhead n s u) (hstep : step u = .next t)
    (ht : t.status = .running) : RunsAhead (n + 1) s t := by
  obtain ⟨-, i, hne, -, hexec⟩ := exec_of_step_running hstep ht
  refine ⟨ht, ?_, (exec_mem hexec).trans h.mem, (exec_fault hexec).trans h.fault⟩
  rw [exec_pc hexec, if_neg hne, h.pc, BitVec.add_assoc, ← ofNat_succ_word]

/-- While RUNNING a run has gone one address a step. -/
theorem runsAhead_of_stepsTo {n : Nat} {s t : State} (hs : s.status = .running) (h : StepsTo n s t)
    (ht : t.status = .running) : RunsAhead n s t := by
  induction n generalizing t with
  | zero =>
    rw [stepsTo_zero] at h
    subst h
    exact ⟨hs, (BitVec.add_zero _).symm, rfl, rfl⟩
  | succ n ih =>
    obtain ⟨u, hu, hlast⟩ := stepsTo_succ_last.mp h
    obtain ⟨hurun, -⟩ := exec_of_step_running hlast ht
    exact (ih hu hurun).succ hlast ht

/-- What such a state fetches is the byte `n` addresses on. -/
theorem RunsAhead.fetch {n : Nat} {s t : State} (h : RunsAhead n s t) :
    t.fetch = s.mem.read (s.pc + BitVec.ofNat 16 n) := by
  rw [State.fetch, h.mem, h.pc]

/-- Settles O52: the pc is that of a state so many addresses on. -/
theorem runningPcCountsTheSteps : Obligations.RunningPcCountsTheSteps := by
  unfold Obligations.RunningPcCountsTheSteps
  intro n s t hs h ht
  rw [(runsAhead_of_stepsTo hs h ht).pc, BitVec.toNat_add, BitVec.toNat_ofNat, Nat.add_mod_mod]

/-- A run is still RUNNING after `n` steps exactly when none of the first `n` bytes from pc on stops it. -/
theorem stepsTo_running_iff {n : Nat} {s t : State} (hs : s.status = .running) (h : StepsTo n s t) :
    t.status = .running ↔ ∀ j, j < n → stopsRun (s.mem.read (s.pc + BitVec.ofNat 16 j)) = false := by
  induction n generalizing t with
  | zero =>
    rw [stepsTo_zero] at h
    simp [← h, hs]
  | succ n ih =>
    obtain ⟨u, hu, hlast⟩ := stepsTo_succ_last.mp h
    rw [step_running_iff hlast, Nat.forall_lt_succ_right, ← ih hu]
    refine and_congr_right fun hurun => ?_
    rw [(runsAhead_of_stepsTo hs hu hurun).fetch]

/-- Settles O51: each NOP of the row takes the last one's state one address further. -/
theorem runOfNopsAdvancesPcOnly : Obligations.RunOfNopsAdvancesPcOnly := by
  unfold Obligations.RunOfNopsAdvancesPcOnly
  intro n s hs hnops
  induction n with
  | zero => simp
  | succ n ih =>
    refine stepsTo_succ_last.mpr ⟨_, ih fun j hj => hnops j (Nat.lt_succ_of_lt hj), ?_⟩
    have hrun : ({ s with pc := s.pc + BitVec.ofNat 16 n } : State).status = .running := hs
    have hnop : decodeByte ({ s with pc := s.pc + BitVec.ofNat 16 n } : State).fetch = some .nop :=
      decodeByte_eq_some_iff.mpr (hnops n (Nat.lt_succ_self n))
    rw [step_of_decodes hrun hnop, exec_nop, State.commitPc_seq, BitVec.add_assoc, ← ofNat_succ_word]

/-! ## The run under fuel (40_engine.md section 5) -/

/-- The run under `k` steps of fuel has no result exactly when the state after `k` steps is RUNNING. -/
theorem runFuel_eq_none_iff {k : Nat} {s t : State} (h : StepsTo k s t) :
    runFuel k s = none ↔ t.status = .running := by
  rw [Option.eq_none_iff_forall_ne_some]
  constructor
  · intro hnone
    by_contra ht
    exact hnone t (runFuel_eq_some_iff.mpr ⟨h, ht⟩)
  · intro ht u hu
    obtain ⟨hku, hterm⟩ := runFuel_eq_some_iff.mp hu
    exact hterm (stepsTo_unique h hku ▸ ht)

/-- A terminal state of a run has a first step at which it is reached. -/
theorem exists_first_terminal {k : Nat} {s t : State} (h : StepsTo k s t) (ht : t.status ≠ .running) :
    ∃ n, n ≤ k ∧ StepsTo n s t ∧ ∀ m, m < n → ∀ u, StepsTo m s u → u.status = .running := by
  classical
  have hex : ∃ n u, StepsTo n s u ∧ u.status ≠ .running := ⟨k, t, h, ht⟩
  obtain ⟨u, hu, hterm⟩ := Nat.find_spec hex
  have hle : Nat.find hex ≤ k := Nat.find_min' hex ⟨t, h, ht⟩
  obtain rfl : u = t := stepsTo_unique (stepsTo_of_terminal hu hterm hle) h
  refine ⟨Nat.find hex, hle, hu, fun m hm v hv => ?_⟩
  by_contra hvterm
  exact Nat.find_min hex hm ⟨v, hv, hvterm⟩

theorem act_run_eq_some_iff {x y : Session} {k : Nat} {r : HostReply} :
    x.act (.run k) = some (y, r) ↔ runRequest k x.core = some (y.core, r) ∧ y.started = true := by
  constructor
  · intro h
    obtain ⟨_, heq, -⟩ | ⟨heq, -⟩ | ⟨_, heq, hreq, hstarted⟩ | ⟨_, heq, -⟩ := act_cases h <;> cases heq
    exact ⟨hreq, hstarted⟩
  · rintro ⟨hreq, hstarted⟩
    obtain ⟨core, started⟩ := y
    cases hstarted
    simp [Session.act, hreq]

/-- Settles O53: the run under fuel answers the state its fuel reaches, whose first step is looked for; the
requests answer that state and its status. -/
theorem runReturnsTheFirstTerminalState : Obligations.RunReturnsTheFirstTerminalState := by
  unfold Obligations.RunReturnsTheFirstTerminalState
  refine ⟨fun k s t => ?_, fun k s t r h => ?_, fun k s => ?_, fun x y k r => act_run_eq_some_iff,
    fun x y k r w h => ?_⟩
  · rw [runFuel_eq_some_iff]
    constructor
    · rintro ⟨h, ht⟩
      obtain ⟨n, hn, hnt, hfirst⟩ := exists_first_terminal h ht
      exact ⟨n, hn, hnt, ht, hfirst⟩
    · rintro ⟨n, hn, hnt, ht, -⟩
      exact ⟨stepsTo_of_terminal hnt ht hn, ht⟩
  · obtain ⟨hrun, rfl⟩ := runRequest_eq_some_iff.mp h
    exact ⟨hrun, statusReply_of_halted, statusReply_of_faulted⟩
  · cases h : runFuel k s <;> simp [runRequest, h]
  · exact act_write_of_started w (act_run_eq_some_iff.mp h).2

/-! ## The end of a run (40_engine.md section 6) -/

/-- Settles O54: the first terminal state is what the step of the last RUNNING state answers. -/
theorem endOfRunIsHaltOrFaultInPlace : Obligations.EndOfRunIsHaltOrFaultInPlace := by
  unfold Obligations.EndOfRunIsHaltOrFaultInPlace
  intro k s t hs h
  obtain ⟨hk, ht⟩ := runFuel_eq_some_iff.mp h
  obtain ⟨n, hn, hnt, hfirst⟩ := exists_first_terminal hk ht
  cases n with
  | zero =>
    rw [stepsTo_zero] at hnt
    exact absurd (hnt ▸ hs) ht
  | succ n =>
    obtain ⟨u, hu, hlast⟩ := stepsTo_succ_last.mp hnt
    have hurun := hfirst n (Nat.lt_succ_self n) u hu
    exact ⟨n, u, hn, hu, hurun, hnt, step_ends hurun hlast ht⟩

/-- From a RUNNING core the run under `n` steps of fuel has no result exactly when none of the first `n` bytes
from pc on stops it. -/
theorem runFuel_eq_none_iff_bytes {s : State} (hs : s.status = .running) (n : Nat) :
    runFuel n s = none ↔ ∀ j, j < n → stopsRun (s.mem.read (s.pc + BitVec.ofNat 16 j)) = false := by
  obtain ⟨t, ht⟩ := stepsTo_completes n s
  rw [runFuel_eq_none_iff ht, stepsTo_running_iff hs ht]

/-- Settles O55: the run passes the bytes that do not stop it, and its next step is that of the stopping byte. -/
theorem runEndsAtTheFirstStoppingByte : Obligations.RunEndsAtTheFirstStoppingByte := by
  unfold Obligations.RunEndsAtTheFirstStoppingByte
  intro s k hs _ hpass hstop
  refine ⟨fun n => ?_, ?_⟩
  · rw [← not_iff_not, Bool.not_eq_true, Option.isSome_eq_false_iff, Option.isNone_iff_eq_none,
      runFuel_eq_none_iff_bytes hs, not_lt]
    constructor
    · intro hnone
      by_contra hkn
      rw [hnone k (not_le.mp hkn)] at hstop
      cases hstop
    · exact fun hnk j hj => hpass j (Nat.lt_of_lt_of_le hj hnk)
  · obtain ⟨u, hu⟩ := stepsTo_completes k s
    have hurun : u.status = .running := (stepsTo_running_iff hs hu).mpr hpass
    have hahead := runsAhead_of_stepsTo hs hu hurun
    rw [← hahead.fetch] at hstop ⊢
    obtain ⟨t, hlast⟩ := step_completes u
    have hterm : t.status ≠ .running := fun ht => by simp [((step_running_iff hlast).mp ht).2] at hstop
    refine ⟨t, runFuel_eq_some_iff.mpr ⟨stepsTo_succ_last.mpr ⟨u, hu, hlast⟩, hterm⟩,
      (step_mem hlast).trans hahead.mem, fun hhalt => ?_, fun hne => ?_⟩
    · obtain ⟨hstatus, -, rfl⟩ | ⟨-, hnone, -⟩ := step_ends hurun hlast hterm
      · exact ⟨hstatus, rfl, hahead.fault⟩
      · rw [hhalt] at hnone
        cases hnone
    · obtain ⟨-, hhalt, -⟩ | ⟨hstatus, -, rfl⟩ := step_ends hurun hlast hterm
      · exact absurd hhalt hne
      · rw [← hahead.pc]
        exact ⟨hstatus, rfl, (u.running_iff.mp hurun).1, rfl⟩

/-- Settles O56: every address is some number of bytes from pc on, and the run reads them all. -/
theorem runNeverEndsWithoutAStoppingByte : Obligations.RunNeverEndsWithoutAStoppingByte := by
  unfold Obligations.RunNeverEndsWithoutAStoppingByte
  intro s hs
  simp only [runFuel_eq_none_iff_bytes hs]
  constructor
  · intro hnone a
    have hreach : s.pc + BitVec.ofNat 16 (a - s.pc).toNat = a := by
      rw [BitVec.ofNat_toNat, BitVec.setWidth_eq, add_sub_cancel]
    rw [← hreach]
    exact hnone _ _ (Nat.lt_succ_self _)
  · exact fun hall n j _ => hall _

/-- A step faults only from a fault or on a byte that does not decode. -/
theorem step_faulted {s t : State} (h : step s = .next t) (ht : t.status = .faulted) :
    s.status = .faulted ∨ decodeByte s.fetch = none := by
  obtain ⟨-, rfl⟩ | ⟨-, hnone, -⟩ | ⟨hs, i, -, hexec⟩ := step_cases h
  · exact .inl ht
  · exact .inr hnone
  · rw [exec_status hs hexec] at ht
    split at ht <;> cases ht

/-- Settles O57: over a memory that decodes everywhere, which no step changes, no step faults. -/
theorem memoryOfDecodableBytesRunsSafely : Obligations.MemoryOfDecodableBytesRunsSafely := by
  unfold Obligations.MemoryOfDecodableBytesRunsSafely
  intro s hs hall n t h
  have hstep : ∀ u v : State, u.status ≠ .faulted ∧ u.mem = s.mem → step u = .next v →
      v.status ≠ .faulted ∧ v.mem = s.mem := by
    rintro u v ⟨hu, hmem⟩ huv
    refine ⟨fun hv => ?_, (step_mem huv).trans hmem⟩
    obtain hfault | hnone := step_faulted huv hv
    · exact hu hfault
    · have hsome := hall u.pc
      rw [← hmem, ← State.fetch, hnone] at hsome
      cases hsome
  exact (stepsTo_keeps hstep n s t ⟨by simp [hs], rfl⟩ h).1

/-! ## What a run keeps of the flags (42_alu8.md section 4) -/

/-- A piece of the state that every step keeps unless it starts from a RUNNING state outside `Q` is kept by a run
all of whose RUNNING states are in `Q`. -/
theorem stepsTo_keeps_piece {α : Type} {f : State → α} {Q : State → Prop}
    (hstep : ∀ s t, step s = .next t → (s.status = .running → Q s) → f t = f s) {n : Nat} {s t : State}
    (h : StepsTo n s t) (hQ : ∀ m, m < n → ∀ u, StepsTo m s u → u.status = .running → Q u) : f t = f s := by
  induction n generalizing t with
  | zero =>
    rw [stepsTo_zero] at h
    rw [h]
  | succ n ih =>
    obtain ⟨u, hu, hlast⟩ := stepsTo_succ_last.mp h
    have hlastKeeps : f t = f u := hstep u t hlast (hQ n (Nat.lt_succ_self n) u hu)
    exact hlastKeeps.trans (ih hu fun m hm => hQ m (Nat.lt_succ_of_lt hm))

/-- A step that does not fetch ADD A,C keeps the carry flag. -/
theorem step_flags_c {s t : State} (h : step s = .next t) (hadd : s.status = .running → s.fetch ≠ encode .addAC) :
    t.flags.c = s.flags.c := by
  obtain hkeep | ⟨hs, i, hi, hexec⟩ := step_flags h
  · rw [hkeep]
  · refine exec_flags_c (fun heq => hadd hs ?_) hexec
    rw [← heq, encode_eq_of_decodeByte hi]

/-- A step that fetches neither ADD A,C nor INC B keeps every flag. -/
theorem step_keeps_flags {s t : State} (h : step s = .next t)
    (hne : s.status = .running → s.fetch ≠ encode .addAC ∧ s.fetch ≠ encode .incB) : t.flags = s.flags := by
  obtain hkeep | ⟨hs, i, hi, hexec⟩ := step_flags h
  · exact hkeep
  · obtain ⟨hadd, hinc⟩ := hne hs
    rw [← encode_eq_of_decodeByte hi] at hadd hinc
    exact exec_flags (fun heq => hadd (congrArg encode heq)) (fun heq => hinc (congrArg encode heq)) hexec

/-- Settles O58: a run keeps of the flags what each of its steps keeps, and N is set after none. -/
theorem flagsChangeOnlyWhereTheirWritersAreFetched : Obligations.FlagsChangeOnlyWhereTheirWritersAreFetched := by
  unfold Obligations.FlagsChangeOnlyWhereTheirWritersAreFetched
  refine ⟨fun n s t => stepsTo_keeps_piece fun _ _ => step_flags_c,
    fun n s t => stepsTo_keeps_piece fun _ _ => step_keeps_flags, fun n s t h => ?_⟩
  exact stepsTo_keeps (P := fun u => u.flags.n = true → s.flags.n = true)
    (fun u v hu huv hv => hu (step_flags_n huv hv)) n s t id h

end Sys2Proof.Machine
